-- ==== Sys2Proof/Word.lean ====
section
/-! DEFINITION. The word types of the core: the byte of `BUF` (20 R50) and the 32-bit words of the descriptor
and the status port (30 R70, 10 R28). -/
namespace Sys2Proof

/-- One byte: the unit of `BUF`, of a chunk and of both output streams (20 R50). -/
abbrev Byte := BitVec 8

/-- A 32-bit word: the descriptor DESC, a status word (30 R70, 10 R28). -/
abbrev Word := BitVec 32

end Sys2Proof
end

