-- ==== Sys2Proof/Config.lean ====
section
/-! DEFINITION. The constants that define the core, one named definition per row of the table of 00 R7 (D28: each
literal is a named field with the stated value). `MAX_CHUNK` is a parameter, held in `State.maxChunk`; its default
stands here. There is no free value: 92_eei_decisions.md decides every open value or makes it a parameter. -/
namespace Sys2Proof.Config

/-- `C`: the capacity of `BUF` in bytes, 1 MiB (00 R7). -/
abbrev capacity : Nat := 1048576

/-- `HDR`: the header's length in bytes (00 R7). -/
abbrev hdr : Nat := 28

/-- `MARKER`: the magic marker, bytes 0..3 of a frame (00 R7, 20 R55). -/
abbrev marker : List Byte := [0xEF#8, 0xBE#8, 0x00#8, 0x00#8]

/-- `OFF_FS`: where FrameSize stands in the header (00 R7). -/
abbrev offFrameSize : Nat := 8

/-- `OFF_TS`: where ThermalSize stands in the header (00 R7). -/
abbrev offThermalSize : Nat := 12

/-- `OFF_JS`: where JpgSize stands in the header (00 R7). -/
abbrev offJpgSize : Nat := 16

/-- `W`: thermal columns (00 R7). -/
abbrev columns : Nat := 80

/-- `H`: thermal rows (00 R7). -/
abbrev rows : Nat := 60

/-- `STRIDE_W`: the line stride in 16-bit words (00 R7). -/
abbrev strideWords : Nat := 82

/-- `LINE_OFF`: the line offset in bytes (00 R7). -/
abbrev lineOffset : Nat := 32

/-- `PAD`: zero bytes after the JPEG (00 R7). -/
abbrev pad : Nat := 128

/-- `SOI`: the JPEG start-of-image marker (00 R7). -/
abbrev soi : List Byte := [0xFF#8, 0xD8#8]

/-- `THERMAL_BYTES`: the length of a ThermalFrame (00 R7). -/
abbrev thermalBytes : Nat := 9600

/-- `CNT_W`: the width of the frame counter in bits (00 R7, 10 R23; D19). -/
abbrev counterWidth : Nat := 32

/-- The default of the parameter `MAX_CHUNK` (00 R7, R8; D6). -/
abbrev maxChunkDefault : Nat := capacity

end Sys2Proof.Config
end

