-- ==== Sys2Proof/Syntax.lean ====
section
/-! DEFINITION. What the host can put on the input port (`PortEvent`, 30 R70 and R83), and the core's five
transactions as instructions (`Instr`), one constructor per row of spec/opcode_table.json. -/
namespace Sys2Proof

/-- One input transaction as the host presents it (30 R70): a descriptor word with the bytes of its data phase, in
transport order, or an assertion of the `RST` pin, which has no descriptor (30 R83). -/
inductive PortEvent where
  | transfer (desc : Word) (data : List Byte)
  | rst
  deriving DecidableEq, Repr

/-- The five transactions (44 R180). -/
inductive Instr where
  /-- CHUNK_ERR (44 R184): the transport marked the chunk as failed. RSVD and LEN are kept as written and ignored. -/
  | chunkErr (rsvd : BitVec 10) (len : BitVec 21)
  /-- ILLEGAL (44 R185): ERR = 0 and RSVD ≠ 0 or LEN > MAX_CHUNK. -/
  | illegal (rsvd : BitVec 10) (len : BitVec 21)
  /-- CHUNK_EMPTY (44 R186): a successful chunk of no bytes. -/
  | chunkEmpty
  /-- CHUNK (44 R187): a successful chunk; its operand `L` is `data.length` (30 R73). -/
  | chunk (data : List Byte)
  /-- RST (44 R190): the reset pin. -/
  | rst
  deriving DecidableEq, Repr

end Sys2Proof
end

