-- ==== Sys2Proof/WellFormed.lean ====
section
/-! DEFINITION. Which terms of `Instr` some descriptor of the port stands for, for a given `MAX_CHUNK` (30 R72, R75),
with a name for each way a term can fail to be one. -/
namespace Sys2Proof

/-- Why a term of `Instr` is no transaction of the port. -/
inductive IllFormed where
  /-- An `illegal` whose fields are legal: RSVD = 0 and LEN ≤ MAX_CHUNK (30 R75). -/
  | legalFields
  /-- A `chunk` of no bytes: that descriptor is CHUNK_EMPTY (30 R72, order 3). -/
  | emptyChunk
  /-- A `chunk` longer than MAX_CHUNK: that descriptor is ILLEGAL (30 R72, order 2). -/
  | chunkTooLong
  deriving DecidableEq, Repr

/-- The check of one instruction; `none` says that it is well formed. -/
def illFormed (maxChunk : Nat) : Instr → Option IllFormed
  | .chunkErr _ _ => none
  | .illegal rsvd len => if rsvd ≠ 0 ∨ maxChunk < len.toNat then none else some .legalFields
  | .chunkEmpty => none
  | .chunk data =>
    if data = [] then some .emptyChunk
    else if maxChunk < data.length then some .chunkTooLong
    else none
  | .rst => none

/-- The instruction is one that the port can carry. -/
abbrev WellFormed (maxChunk : Nat) (i : Instr) : Prop := illFormed maxChunk i = none

end Sys2Proof
end

