-- ==== Sys2Proof/Decode.lean ====
section
/-! DEFINITION. The decoder of 30 R72, total on every descriptor and every data phase, and the encoder of 30 R85. -/
namespace Sys2Proof

/-- `DESC[31]`, ERR (30 R71). -/
def descErr (desc : Word) : Bool := desc.getLsbD 31

/-- `DESC[30:21]`, RSVD (30 R71). -/
def descRsvd (desc : Word) : BitVec 10 := desc.extractLsb' 21 10

/-- `DESC[20:0]`, LEN (30 R71). -/
def descLen (desc : Word) : BitVec 21 := desc.extractLsb' 0 21

/-- Why a transfer is rejected. -/
inductive DecodeError where
  /-- ERR = 0, the fields are legal, and the data phase is not `LEN` bytes long: 30 R70 says the host must supply
  exactly `LEN` and lets a model refuse the transaction (log 6, DESIGN CHOICE, safe). -/
  | dataPhaseLength
  deriving DecidableEq, Repr

/-- The decode of 30 R72: the checks in its order, the first that matches selects the transaction. A data phase under
ERR = 1 or an illegal descriptor is discarded whatever its length (30 R74, 44 R185; DEDUCED, log 7). -/
def decode (maxChunk : Nat) : PortEvent → Except DecodeError Instr
  | .rst => .ok .rst
  | .transfer desc data =>
    if descErr desc then .ok (.chunkErr (descRsvd desc) (descLen desc))
    else if descRsvd desc ≠ 0 ∨ maxChunk < (descLen desc).toNat then
      .ok (.illegal (descRsvd desc) (descLen desc))
    else if data.length ≠ (descLen desc).toNat then .error .dataPhaseLength
    else if descLen desc = 0 then .ok .chunkEmpty
    else .ok (.chunk data)

/-- A descriptor from its three fields (30 R71). -/
def makeDesc (err : BitVec 1) (rsvd : BitVec 10) (len : BitVec 21) : Word := err ++ rsvd ++ len

/-- The encoding of 30 R85: the descriptor and the data phase of a well-formed instruction. An ignored data phase
(CHUNK_ERR, ILLEGAL) is left out, as in the program notation of 30 R87. -/
def encode : Instr → PortEvent
  | .chunkErr rsvd len => .transfer (makeDesc 1 rsvd len) []
  | .illegal rsvd len => .transfer (makeDesc 0 rsvd len) []
  | .chunkEmpty => .transfer (makeDesc 0 0 0) []
  | .chunk data => .transfer (makeDesc 0 0 (BitVec.ofNat 21 data.length)) data
  | .rst => .rst

/-- The mnemonic of an instruction, as spec/opcode_table.json spells it (30 R85). -/
def mnemonic : Instr → String
  | .chunkErr _ _ => "CHUNK_ERR"
  | .illegal _ _ => "ILLEGAL"
  | .chunkEmpty => "CHUNK_EMPTY"
  | .chunk _ => "CHUNK"
  | .rst => "RST"

/-- The port event of an opcode-table row's word: a row of no bits is the reset pin, any other a descriptor (the bits
above `nbits` are 0) with the data phase its descriptor calls for, all zeros (DESIGN CHOICE, log 11). -/
def tableEvent (maxChunk nbits w : Nat) : PortEvent :=
  if nbits = 0 then .rst
  else
    let desc := BitVec.ofNat 32 (w % 2 ^ nbits)
    if descErr desc = false ∧ descRsvd desc = 0 ∧ (descLen desc).toNat ≤ maxChunk then
      .transfer desc (List.replicate (descLen desc).toNat 0)
    else .transfer desc []

/-- The instruction the decoder reads from an opcode-table row's word, at the default `MAX_CHUNK`. -/
def decodeTableWord (nbits w : Nat) : Option Instr :=
  match decode Config.maxChunkDefault (tableEvent Config.maxChunkDefault nbits w) with
  | .ok i => some i
  | .error _ => none

end Sys2Proof
end

