-- ==== Sys2Proof/Machine/State.lean ====
section
/-! DEFINITION. The state of the core as plain data (10 R20-R35), with its ports, and why a step can stop. -/
namespace Sys2Proof.Machine

/-- The contents of `BUF`: (index, byte) pairs, the indices strictly rising, none beside the byte an unlisted index
reads as (`Memory.wf`, in Ops.lean, is that form). -/
abbrev Memory := List Host.Cell

/-- The architectural state of 10 R20-R24: what the FrameDecoder owns. FSM state and header fields are computed from it
(10 R29, R30). -/
structure FrameDecoder where
  /-- `BUF`, the byte store (10 R20). -/
  buf : Memory
  /-- `len`, the write cursor, 0..C (10 R22). -/
  len : BitVec 21
  /-- `frame_count`, `CNT_W` bits wide (10 R23, 00 R7). -/
  frameCount : BitVec Config.counterWidth
  /-- `EVT`, the event vector of the last transaction (10 R24). -/
  evt : BitVec 16
  deriving DecidableEq, Repr

/-- One frame handed to an output port (00 R12, `emit_T` and `emit_V`; 30 R80, R81). -/
inductive Emission where
  | thermal (bytes : List Byte)
  | visible (bytes : List Byte) (warn : Bool)
  deriving DecidableEq, Repr

/-- The ready/accept handshake of one sink, an input of the core (30 R82, 44 R192). `answers` are the sink's answers to
the core's coming offers, oldest first (`true`: it accepts the whole frame; `false`: not yet); when they are used up,
`standing` answers every offer (log 5, DESIGN CHOICE). -/
structure Sink where
  answers : List Bool
  standing : Bool
  deriving DecidableEq, Repr

/-- A transaction whose emissions a sink has not yet accepted (44 R192): the frames still to be accepted, in order, and
the architectural state the transaction leaves when the last one is (DEDUCED, log 13). -/
structure Held where
  after : FrameDecoder
  pending : List Emission
  deriving DecidableEq, Repr

/-- The machine: the core's state, its parameter, its ports. -/
structure State where
  /-- `BUF`, `len`, `frame_count`, `EVT` as the status port sees them: before or after a transaction (20 R59). -/
  dec : FrameDecoder
  /-- The parameter `MAX_CHUNK` (00 R8), a strap that no step changes (DESIGN CHOICE, log 2). -/
  maxChunk : Nat
  /-- The input port: transactions presented and not yet taken, in transport order (44 R181; DESIGN CHOICE, log 3). -/
  input : List PortEvent
  /-- The transaction whose emission holds the core, if any (44 R192). -/
  held : Option Held
  /-- The thermal sink's handshake. -/
  thermalSink : Sink
  /-- The visible sink's handshake. -/
  visibleSink : Sink
  /-- The frames the sinks have accepted, oldest first: the observation of 44 R194 (DESIGN CHOICE, log 9). -/
  emitted : List Emission
  deriving DecidableEq, Repr

/-- What stops the machine as a fault. The core itself has none (60 R215, 44 R198). -/
inductive Fault where
  /-- Raised by CHUNK when its copy would write an index ≥ C, an address that does not exist (20 R50). It needs
  `maxChunk` above C, which 00 R8 excludes and no step brings about. Safe (DESIGN CHOICE, log 8). -/
  | outsideStore
  deriving DecidableEq, Repr

/-- Why a step is refused. -/
inductive Refusal where
  /-- Raised by an arm of `exec` whose instruction has no meaning yet; there is none. Safe. -/
  | notModelled (mnemonic : String)
  /-- Raised by `step` when the decoder rejects the transfer at the port by this name: the data phase is not `LEN`
  bytes, which 30 R70 lets a model refuse. Safe (DESIGN CHOICE, log 6). -/
  | undecodable (why : DecodeError)
  /-- Raised by CHUNK for a term that is no CHUNK of 44 R187 (no byte, or more than MAX_CHUNK bytes); the decoder
  never gives one. Safe (DESIGN CHOICE, log 8). -/
  | notAChunk
  deriving DecidableEq, Repr

/-- A sink that accepts every frame at once. -/
def Sink.accepting : Sink := { answers := [], standing := true }

/-- The machine right after `RST`, with `BUF_INIT` and `MAX_CHUNK` as arguments (10 R35, 70 R240, 20 R67, 00 R8):
nothing on the input port, no frame in progress, both sinks ready to accept (70 R242; log 5). Every run starts here
(70 R240; log 10). -/
def State.resetWith (bufInit : Memory) (maxChunk : Nat) : State where
  dec := { buf := bufInit, len := 0, frameCount := 0, evt := 0 }
  maxChunk := maxChunk
  input := []
  held := none
  thermalSink := Sink.accepting
  visibleSink := Sink.accepting
  emitted := []

/-- The machine right after `RST` (10 R35), with the default MAX_CHUNK (00 R7) and `BUF_INIT` all zero
(DESIGN CHOICE, log 1: the convention of 95_test_vectors.md; unsafe). -/
def State.reset : State := State.resetWith [] Config.maxChunkDefault

end Sys2Proof.Machine
end

