-- ==== Sys2Proof/Machine/Flags.lean ====
section
/-! DEFINITION. The event vector EVT, the core's only flags (10 R27): the events, their bit numbers and `raise`. -/
namespace Sys2Proof.Machine

/-- The events of 60 R210. -/
inductive Event where
  | dropErr | dropEmpty | illegalDesc | resetMarker | resetOverflow | resync | waitHeader | waitFrame
  | frameDone | thermalEmit | visibleEmit | jpegWarn | boundsSkip
  deriving DecidableEq, Repr

/-- The code of an event: its bit number in EVT (60 R210). -/
def Event.code : Event → Nat
  | .dropErr => 0
  | .dropEmpty => 1
  | .illegalDesc => 2
  | .resetMarker => 3
  | .resetOverflow => 4
  | .resync => 5
  | .waitHeader => 6
  | .waitFrame => 7
  | .frameDone => 8
  | .thermalEmit => 9
  | .visibleEmit => 10
  | .jpegWarn => 11
  | .boundsSkip => 12

/-- `raise E`: sets bit `E` of the event vector (00 R13). It ends nothing and traps nothing. -/
def raise (e : Event) (evt : BitVec 16) : BitVec 16 := evt ||| (1#16 <<< e.code)

/-- `if c: raise E`. -/
def raiseIf (c : Bool) (e : Event) (evt : BitVec 16) : BitVec 16 := if c then raise e evt else evt

/-- The last transaction raised `E` (10 R24, 60 R212: all that is observable of an event is its bit). -/
def raised (e : Event) (evt : BitVec 16) : Bool := evt.getLsbD e.code

end Sys2Proof.Machine
end

