-- ==== Sys2Proof/Machine/Ops.lean ====
section
/-! DEFINITION. The named operations over `BUF` (20_memory.md), the start of a transaction, and the hand-over of frames
to the sinks with its hold (44 R192). The core has no trap entry and no trap return (60 R215, R216): `raise`, in
Flags.lean, is all that an event does, so there is no exception operation to share here. -/
namespace Sys2Proof.Machine

/-! ## The buffer store -/

/-- What an unlisted index of `BUF` reads as. With `State.reset`'s empty list this is `BUF_INIT` = 0 (log 1); any other
`BUF_INIT` is listed, by `State.resetWith` (DESIGN CHOICE). -/
def unlisted : Byte := 0#8

/-- The canonical form of a memory: indices strictly rising, each inside `BUF` (20 R50), none beside `unlisted`. -/
abbrev Memory.wf (m : Memory) : Prop :=
  m.Pairwise (fun c d => c.1 < d.1) ∧ ∀ c ∈ m, c.2 ≠ unlisted ∧ c.1 < Config.capacity

/-- `BUF[a]` (00 R12). -/
def Memory.read : Memory → Nat → Byte
  | [], _ => unlisted
  | (b, v) :: m, a => if b = a then v else Memory.read m a

/-- The entries of the bytes `data` written from index `a` on, in canonical form. -/
def cellsAt (a : Nat) (data : List Byte) : Memory :=
  ((data.zipIdx a).filter (fun p => p.1 != unlisted)).map (fun p => (p.2, p.1))

/-- `MemWrite(a, n, data)` (00 R12), the append copy: `BUF[a+k] <- data[k]`. What lies below and above stays. -/
def Memory.write (m : Memory) (a : Nat) (data : List Byte) : Memory :=
  m.filter (fun c => decide (c.1 < a)) ++ cellsAt a data
    ++ m.filter (fun c => decide (a + data.length ≤ c.1))

/-- The walk of `Memory.slice`: `n` bytes from index `a`, pushed on `acc`; `m` loses its head when it is that byte. -/
def sliceWalk : Memory → Nat → Nat → List Byte → List Byte
  | _, _, 0, acc => acc.reverse
  | [], a, n + 1, acc => sliceWalk [] (a + 1) n (unlisted :: acc)
  | (b, v) :: m, a, n + 1, acc =>
    if b = a then sliceWalk m (a + 1) n (v :: acc)
    else sliceWalk ((b, v) :: m) (a + 1) n (Memory.read m a :: acc)

/-- `MemRead(a, n)` = `slice(a, n)`: `BUF[a] ‖ … ‖ BUF[a+n-1]` (00 R12, 40 R101). Laws/Memory.lean proves it equal to
the list of the `n` single reads. -/
def Memory.slice (m : Memory) (a n : Nat) : List Byte :=
  sliceWalk (m.filter (fun c => decide (a ≤ c.1) && decide (c.1 < a + n))) a n []

/-! ## A transaction's start and the cursor -/

/-- `EVT <- 0`, with which every transaction begins (44 R183). -/
def clearEvents (d : FrameDecoder) : FrameDecoder := { d with evt := 0 }

/-- `raise E` on the core's state (00 R13). -/
def raiseEvent (e : Event) (d : FrameDecoder) : FrameDecoder := { d with evt := raise e d.evt }

/-- `if c: raise E` on the core's state. -/
def raiseEventIf (c : Bool) (e : Event) (d : FrameDecoder) : FrameDecoder := { d with evt := raiseIf c e d.evt }

/-- `reset()`: `len <- 0` and nothing else; `BUF` keeps every byte (40 R100; D9). -/
def resetCursor (d : FrameDecoder) : FrameDecoder := { d with len := 0 }

/-! ## Emission -/

/-- The sink's answer to the core's next offer. -/
def Sink.accepts (k : Sink) : Bool :=
  match k.answers with
  | [] => k.standing
  | b :: _ => b

/-- The sink after it has answered one offer. -/
def Sink.answered (k : Sink) : Sink := { k with answers := k.answers.tail }

/-- The answer of the sink that the frame goes to. -/
def sinkAccepts (e : Emission) (s : State) : Bool :=
  match e with
  | .thermal _ => s.thermalSink.accepts
  | .visible _ _ => s.visibleSink.accepts

/-- That sink has given its answer. -/
def sinkAnswered (e : Emission) (s : State) : State :=
  match e with
  | .thermal _ => { s with thermalSink := s.thermalSink.answered }
  | .visible _ _ => { s with visibleSink := s.visibleSink.answered }

/-- Offers the frames to their sinks in order until one does not accept (44 R192, 20 R66). Gives the state with the
accepted frames emitted, and the frames that are still to be accepted. -/
def deliver : List Emission → State → State × List Emission
  | [], s => (s, [])
  | e :: rest, s =>
    if sinkAccepts e s then deliver rest { sinkAnswered e s with emitted := s.emitted ++ [e] }
    else (sinkAnswered e s, e :: rest)

/-- Ends a transaction that leaves `after` and emits `frames`: when the sinks have accepted every frame the core's
state becomes `after`; until then the transaction is held and the core's state does not change (44 R192, 20 R59; DEDUCED, log 13). -/
def settle (after : FrameDecoder) (frames : List Emission) (s : State) : State :=
  match deliver frames s with
  | (s', []) => { s' with dec := after, held := none }
  | (s', e :: rest) => { s' with held := some { after := after, pending := e :: rest } }

end Sys2Proof.Machine
end

