-- ==== Sys2Proof/Machine/Operands.lean ====
section
/-! DEFINITION. The operands of the core's operations: the multi-byte reads of `BUF` (20 R52, R53), the header
(30 R76, R77), the three tests of the append (40 R102-R104), and the address functions of the two extractors. -/
namespace Sys2Proof.Machine

/-! ## Multi-byte reads -/

/-- `LE16(a)` = `BUF[a] + 256·BUF[a+1]`, a 16-bit sample (00 R12, 20 R53). -/
def le16 (m : Memory) (a : Nat) : BitVec 16 :=
  (m.read a).zeroExtend 16 + 256#16 * (m.read (a + 1)).zeroExtend 16

/-- `LE32(a)`, exact (00 R12, 20 R52; the sums over it never wrap, 00 R9). -/
def le32 (m : Memory) (a : Nat) : Nat :=
  (m.read a).toNat + 2 ^ 8 * (m.read (a + 1)).toNat + 2 ^ 16 * (m.read (a + 2)).toNat
    + 2 ^ 24 * (m.read (a + 3)).toNat

/-- The header's three fields (30 R77). They are not stored (10 R30). -/
structure FrameHeader where
  frameSize : Nat
  thermalSize : Nat
  jpgSize : Nat
  deriving DecidableEq, Repr

/-- FS = LE32(8), TS = LE32(12), JS = LE32(16) (41 R121). Bytes 0-7 and 20-27 are not read (41 R122). -/
def readHeader (m : Memory) : FrameHeader where
  frameSize := le32 m Config.offFrameSize
  thermalSize := le32 m Config.offThermalSize
  jpgSize := le32 m Config.offJpgSize

/-! ## The tests of the append -/

/-- `M`: the chunk has at least 4 bytes and begins with the marker (40 R102; D7). -/
def markerTest (data : List Byte) : Bool :=
  decide (Config.marker.length ≤ data.length) && (data.take Config.marker.length == Config.marker)

/-- `O`: `len + L ≥ C`, exact, and `≥`, not `>` (40 R103). -/
def overflowTest (d : FrameDecoder) (data : List Byte) : Bool :=
  decide (Config.capacity ≤ d.len.toNat + data.length)

/-- `P`: the first `min(len, 4)` bytes of `BUF` are those of the marker (40 R104; D8). -/
def frontTest (d : FrameDecoder) : Bool :=
  d.buf.slice 0 (min d.len.toNat Config.marker.length) == Config.marker.take d.len.toNat

/-! ## Addresses -/

/-- The payload offset of thermal sample (x, y): `p(x, y) = 2·(82·y + x) + 32` (42 R141). -/
def thermalOffset (x y : Nat) : Nat := 2 * (Config.strideWords * y + x) + Config.lineOffset

/-- The index in `BUF` of thermal sample (x, y)'s low byte: `a(x, y) = 28 + p(x, y)` (42 R141). There is no branch for
`x ≥ 80` (42 R146; U2; log 12). -/
def thermalAddr (x y : Nat) : Nat := Config.hdr + thermalOffset x y

/-- The index in `BUF` where the JPEG payload begins: `base = 28 + TS`, exact (43 R161). -/
def visibleBase (thermalSize : Nat) : Nat := Config.hdr + thermalSize

end Sys2Proof.Machine
end

