-- ==== Sys2Proof/Machine/Accumulation.lean ====
section
/-! DEFINITION. AccumulationBuffer: the append with its resets (40_accumulation.md). -/
namespace Sys2Proof.Machine

/-- Where the append's copy starts: 0 after a reset, which the marker test or the overflow test calls for, else `len`.
Both tests are judged on the state before the copy (40 R105, 60 R214). -/
def appendBase (d : FrameDecoder) (data : List Byte) : Nat :=
  if markerTest data || overflowTest d data then 0 else d.len.toNat

/-- The first half of `append(d, L)` (40 R105): raise RESET_MARKER and RESET_OVERFLOW as their tests say, reset once
if either holds, copy the chunk to the tail, advance the cursor. -/
def copyChunk (data : List Byte) (d : FrameDecoder) : FrameDecoder :=
  { raiseEventIf (overflowTest d data) .resetOverflow (raiseEventIf (markerTest data) .resetMarker d) with
    buf := d.buf.write (appendBase d data) data
    len := BitVec.ofNat 21 (appendBase d data + data.length) }

/-- What `append` returns (40 R105). -/
inductive AppendResult where
  | kept
  | resynced
  deriving DecidableEq, Repr

/-- `append(d, L)` (40 R105): the copy, then the front test; a front that is not the marker's raises RESYNC and resets. -/
def appendChunk (data : List Byte) (d : FrameDecoder) : FrameDecoder × AppendResult :=
  if frontTest (copyChunk data d) then (copyChunk data d, .kept)
  else (resetCursor (raiseEvent .resync (copyChunk data d)), .resynced)

end Sys2Proof.Machine
end

