-- ==== Sys2Proof/Machine/HeaderGate.lean ====
section
/-! DEFINITION. FrameHeaderParser and CompletionGate (41_header_gate.md). -/
namespace Sys2Proof.Machine

/-- `try_parse()`: a header exactly when `len ≥ 28` (41 R120). -/
def tryParse (d : FrameDecoder) : Option FrameHeader :=
  if d.len.toNat < Config.hdr then none else some (readHeader d.buf)

/-- `is_complete(FS, len)`: `FS + 28 ≤ len`, exact (41 R124, R125). -/
def isComplete (frameSize len : Nat) : Bool := decide (frameSize + Config.hdr ≤ len)

end Sys2Proof.Machine
end

