-- ==== Sys2Proof/Machine/Thermal.lean ====
section
/-! DEFINITION. ThermalExtractor: the remap of `BUF` into the 80×60 grid (42_thermal.md). -/
namespace Sys2Proof.Machine

/-- The bounds check of one sample: its high byte lies inside the store, `a + 1 ≤ C − 1` (42 R143; D12). -/
def sampleInBounds (x y : Nat) : Bool := decide (thermalAddr x y + 1 ≤ Config.capacity - 1)

/-- `T[y][x]`: the sample at (x, y), or 0 where the bounds check fails (42 R142, R144; D13; a dead branch, log 12). -/
def thermalSample (m : Memory) (x y : Nat) : BitVec 16 :=
  if sampleInBounds x y then le16 m (thermalAddr x y) else 0

/-- The two bytes of a sample on the output port, low byte first (42 R142, R145, 20 R54; D14). -/
def sampleBytes (v : BitVec 16) : List Byte := [v.extractLsb' 0 8, v.extractLsb' 8 8]

/-- Row `y` of the ThermalFrame: its 80 samples, x from 0 to 79. -/
def thermalRow (m : Memory) (y : Nat) : List Byte :=
  (List.range Config.columns).flatMap fun x => sampleBytes (thermalSample m x y)

/-- The ThermalFrame `S`, row-major (42 R142, R145). TS, FS and `len` do not enter (42 R147). -/
def thermalFrame (m : Memory) : List Byte := (List.range Config.rows).flatMap (thermalRow m)

/-- Some sample of the grid is skipped (42 R144); never, at this geometry (42 R143). -/
def thermalSkips : Bool :=
  (List.range Config.rows).any fun y => (List.range Config.columns).any fun x => !sampleInBounds x y

end Sys2Proof.Machine
end

