-- ==== Sys2Proof/Machine/Visible.lean ====
section
/-! DEFINITION. VisibleExtractor: the JPEG slice with its padding (43_visible.md). -/
namespace Sys2Proof.Machine

/-- `V[0 .. JS−1]`: the bytes of `BUF` from `base` on; each index ≥ C gives 0x00 (43 R162; D15). -/
def jpegSlice (m : Memory) (base jpgSize : Nat) : List Byte :=
  m.slice base (min jpgSize (Config.capacity - base))
    ++ List.replicate (jpgSize - (Config.capacity - base)) 0x00#8

/-- Some slice byte lies at an index ≥ C: `base + i ≥ C` for an `i < JS` (43 R162). -/
def visibleSkips (base jpgSize : Nat) : Bool := decide (0 < jpgSize ∧ Config.capacity < base + jpgSize)

/-- `warn`: the slice does not begin with `FF D8`; a slice of one byte does not (43 R163, R164; D16). -/
def soiMissing (slice : List Byte) : Bool :=
  !(decide (Config.soi.length ≤ slice.length) && (slice.take Config.soi.length == Config.soi))

/-- The bytes of the VisibleFrame: the slice and 128 zero bytes (43 R162, R165). -/
def visibleFrame (m : Memory) (base jpgSize : Nat) : List Byte :=
  jpegSlice m base jpgSize ++ List.replicate Config.pad 0x00#8

end Sys2Proof.Machine
end

