-- ==== Sys2Proof/Machine/Completion.lean ====
section
/-! DEFINITION. FrameDecoder: the emission of a completed frame and the CHUNK rule (44 R187-R189). -/
namespace Sys2Proof.Machine

/-- The frames a completed frame emits: thermal before visible, each only where its size is not 0 (44 R188; D18). -/
def completionFrames (h : FrameHeader) (m : Memory) : List Emission :=
  (if 0 < h.thermalSize then [.thermal (thermalFrame m)] else [])
    ++ (if 0 < h.jpgSize then
          [.visible (visibleFrame m (visibleBase h.thermalSize) h.jpgSize)
            (soiMissing (jpegSlice m (visibleBase h.thermalSize) h.jpgSize))]
        else [])

/-- The events of a completed frame, raised in the order of 44 R188 (the extractors' own within it: 42 R142, 43 R162). -/
def completionEvents (h : FrameHeader) (m : Memory) (evt : BitVec 16) : BitVec 16 :=
  let t := decide (0 < h.thermalSize)
  let v := decide (0 < h.jpgSize)
  let base := visibleBase h.thermalSize
  raiseIf v .visibleEmit
    (raiseIf (v && soiMissing (jpegSlice m base h.jpgSize)) .jpegWarn
      (raiseIf (v && visibleSkips base h.jpgSize) .boundsSkip
        (raiseIf t .thermalEmit
          (raiseIf (t && thermalSkips) .boundsSkip (raise .frameDone evt)))))

/-- `complete(TS, JS)` on the core's state (44 R188): the events, the counter (44 R189), the reset to EMPTY. -/
def completeFrame (h : FrameHeader) (d : FrameDecoder) : FrameDecoder :=
  resetCursor { d with evt := completionEvents h d.buf d.evt, frameCount := d.frameCount + 1 }

/-- The CHUNK rule (44 R187): what the transaction leaves in the core and the frames it emits on the way. -/
def chunkResult (data : List Byte) (d : FrameDecoder) : FrameDecoder × List Emission :=
  match appendChunk data (clearEvents d) with
  | (d', .resynced) => (d', [])
  | (d', .kept) =>
    match tryParse d' with
    | none => (raiseEvent .waitHeader d', [])
    | some h =>
      if isComplete h.frameSize d'.len.toNat then (completeFrame h d', completionFrames h d'.buf)
      else (raiseEvent .waitFrame d', [])

end Sys2Proof.Machine
end

