-- ==== Sys2Proof/Machine/Chunk.lean ====
section
/-! DEFINITION. The meaning of CHUNK (44 R187). -/
namespace Sys2Proof.Machine

/-- CHUNK (44 R187) with `1 ≤ L ≤ MAX_CHUNK`; the transaction ends when its frames are accepted (44 R192). A term outside
that range is no CHUNK and is refused; a copy past index C − 1 faults, which `MAX_CHUNK ≤ C` rules out (40 R105
corner 1; log 8). -/
def execChunk (data : List Byte) (s : State) : Host.Outcome State Fault Refusal :=
  if data.length = 0 ∨ s.maxChunk < data.length then .refused .notAChunk
  else if Config.capacity < appendBase s.dec data + data.length then .fault .outsideStore
  else .next (settle (chunkResult data s.dec).1 (chunkResult data s.dec).2 s)

end Sys2Proof.Machine
end

