-- ==== Sys2Proof/Machine/NoOps.lean ====
section
/-! DEFINITION. The meanings of the no-op transactions CHUNK_ERR, ILLEGAL and CHUNK_EMPTY (44 §2). -/
namespace Sys2Proof.Machine

/-- What the three no-ops share: `EVT <- 0; raise E; return` (44 R184-R186). -/
def dropWith (e : Event) (s : State) : State := { s with dec := raiseEvent e (clearEvents s.dec) }

/-- CHUNK_ERR (44 R184): DROP_ERR; RSVD, LEN and any data are ignored (D5). -/
def execChunkErr (_rsvd : BitVec 10) (_len : BitVec 21) (s : State) : Host.Outcome State Fault Refusal :=
  .next (dropWith .dropErr s)

/-- ILLEGAL (44 R185): ILLEGAL_DESC; no state but EVT changes, nothing traps (D4). -/
def execIllegal (_rsvd : BitVec 10) (_len : BitVec 21) (s : State) : Host.Outcome State Fault Refusal :=
  .next (dropWith .illegalDesc s)

/-- CHUNK_EMPTY (44 R186): DROP_EMPTY; the append's tests are not evaluated. -/
def execChunkEmpty (s : State) : Host.Outcome State Fault Refusal := .next (dropWith .dropEmpty s)

end Sys2Proof.Machine
end

