-- ==== Sys2Proof/Machine/Reset.lean ====
section
/-! DEFINITION. The meaning of RST, the hardware reset input (44 R190). -/
namespace Sys2Proof.Machine

/-- RST (44 R190): `len <- 0; frame_count <- 0; EVT <- 0`. `BUF` is not changed and frames already emitted stay. -/
def execRst (s : State) : Host.Outcome State Fault Refusal :=
  .next { s with dec := { s.dec with len := 0, frameCount := 0, evt := 0 } }

end Sys2Proof.Machine
end

