-- ==== Sys2Proof/Machine/Dispatch.lean ====
section
/-! DEFINITION. `exec`: one arm per transaction, each a direct call of its meaning. -/
namespace Sys2Proof.Machine

/-- The meaning of each transaction (44 R180). `step` calls it only while no emission is held (44 R181). -/
def exec (i : Instr) (s : State) : Host.Outcome State Fault Refusal :=
  match i with
  | .chunkErr rsvd len => Sys2Proof.Machine.execChunkErr rsvd len s
  | .illegal rsvd len => Sys2Proof.Machine.execIllegal rsvd len s
  | .chunkEmpty => Sys2Proof.Machine.execChunkEmpty s
  | .chunk data => Sys2Proof.Machine.execChunk data s
  | .rst => Sys2Proof.Machine.execRst s

end Sys2Proof.Machine
end

