-- ==== Sys2Proof/Machine/Port.lean ====
section
/-! DEFINITION. Taking the next transaction off the input port, resuming a held one, and presenting one to the port. -/
namespace Sys2Proof.Machine

/-- The core offers the held frames again; only their acceptance lifts the hold (44 R192, 70 R249). -/
def resumeHeld (h : Held) (s : State) : State := settle h.after h.pending s

/-- The transaction at the head of the input port, decoded (44 R181, R193): `none` where the port is empty. -/
def fetch (s : State) : Option (Except DecodeError Instr × State) :=
  match s.input with
  | [] => none
  | ev :: rest => some (decode s.maxChunk ev, { s with input := rest })

/-- `ev` presented as the next transaction of a core that holds no emission. -/
def present (ev : PortEvent) (s : State) : State := { s with input := ev :: s.input, held := none }

end Sys2Proof.Machine
end

