-- ==== Sys2Proof/Machine/Step.lean ====
section
/-! DEFINITION. One step: a held emission is offered again, else the next transaction of the input port is taken. -/
namespace Sys2Proof.Machine

/-- One step of the core (44 R181, R182, R192). While an emission is held no transaction is taken, not even RST
(70 R249). With nothing on the input port the core is idle and holds its state (60 R224; DEDUCED, log 4). -/
def step (s : State) : Host.Outcome State Fault Refusal :=
  match s.held with
  | some h => .next (resumeHeld h s)
  | none =>
    match fetch s with
    | none => .next s
    | some (.error why, _) => .refused (.undecodable why)
    | some (.ok i, s') => exec i s'

/-- `s` with the transaction of an opcode-table row's word presented as the next one of the input port (logs 3, 11). -/
def State.withFetchWord (s : State) (nbits w : Nat) : State := present (tableEvent s.maxChunk nbits w) s

end Sys2Proof.Machine
end

