-- ==== Sys2Proof/Machine/Assembler.lean ====
section
/-! DEFINITION. The program notation of 30 R87 and its pseudo-instructions (30 R88): how the spec writes streams of
transactions. `CHUNK`, `CHUNK_ERR`, `CHUNK_EMPTY`, `ILLEGAL` and `RST` are the constructors of `Instr` under `encode`;
`STAT k` is `statusRead k`, no transaction. -/
namespace Sys2Proof.Machine

/-- `LE32(v)` as four bytes, least significant first (20 R52). -/
def le32Bytes (v : Word) : List Byte :=
  [v.extractLsb' 0 8, v.extractLsb' 8 8, v.extractLsb' 16 8, v.extractLsb' 24 8]

/-- `FILL n v` (30 R88). -/
def fillBytes (n : Nat) (v : Byte) : List Byte := List.replicate n v

/-- `HDR fs ts js` (30 R88): the 28 bytes of a header, the unused bytes 0 (30 R76). -/
def headerBytes (fs ts js : Word) : List Byte :=
  Config.marker ++ fillBytes 4 0 ++ le32Bytes fs ++ le32Bytes ts ++ le32Bytes js ++ fillBytes 8 0

/-- `CHUNK b0 … bn-1` (30 R87). -/
def chunkOf (data : List Byte) : PortEvent := encode (.chunk data)

/-- `FRAME fs ts js p…` (30 R88): a whole frame in one chunk. -/
def frameOf (fs ts js : Word) (payload : List Byte) : PortEvent := chunkOf (headerBytes fs ts js ++ payload)

/-- `BYTES s` (30 R88): one CHUNK of 1 byte per byte of `s`. -/
def bytesOf (s : List Byte) : List PortEvent := s.map fun b => chunkOf [b]

/-- The pieces of lengths `ns` cut from `s` in order. -/
def cutBytes : List Nat → List Byte → List (List Byte)
  | [], _ => []
  | n :: ns, s => s.take n :: cutBytes ns (s.drop n)

/-- `SPLIT n1,…,nk s` (30 R88): CHUNKs of lengths n1 … nk cut from `s` in order. -/
def splitOf (ns : List Nat) (s : List Byte) : List PortEvent := (cutBytes ns s).map chunkOf

end Sys2Proof.Machine
end

