-- ==== Sys2Proof/Machine/StatusPort.lean ====
section
/-! DEFINITION. The read-only status port (10 R28, 30 R84): a view of the state, never a transaction. -/
namespace Sys2Proof.Machine

/-- STATE, a function of `len` (10 R29; D22): 0 EMPTY, 1 ACCUMULATING without a header, 2 ACCUMULATING with one. -/
def fsmState (d : FrameDecoder) : BitVec 2 :=
  if d.len.toNat = 0 then 0 else if d.len.toNat < Config.hdr then 1 else 2

/-- The word that index `SIDX` reads (10 R28): 0 STATUS, 1 LEN, 2 FRAME_COUNT, 3 EVT; bits not listed read 0. A read
changes nothing, so it is a function of the state; during a hold it sees the state before the transaction (20 R59). -/
def statusRead (sidx : BitVec 2) (s : State) : Word :=
  if sidx = 0 then (fsmState s.dec).zeroExtend 32
  else if sidx = 1 then s.dec.len.zeroExtend 32
  else if sidx = 2 then s.dec.frameCount
  else s.dec.evt.zeroExtend 32

end Sys2Proof.Machine
end

