-- ==== Sys2Proof/Safety.lean ====
section
/-! DEFINITION. The terms claims use: the invariant between transactions (10 R31, 60 R213), the shapes of the emitted
frames (30 R80, R81), and streams of transactions (44 R194, R195). -/
namespace Sys2Proof.Safety

open Sys2Proof.Machine

/-! ## The event vector -/

/-- Exactly one of four conditions holds. -/
def exactlyOne (a b c d : Bool) : Bool :=
  (a && !b && !c && !d) || (!a && b && !c && !d) || (!a && !b && c && !d) || (!a && !b && !c && d)

/-- The event sets of a CHUNK (60 R213 points 2-6): any of {3, 4}, then exactly one of {5, 6, 7, 8}; 3 excludes 5;
9-12 only with 8; 11 and 12 only with 10; the drop events and the reserved bits never. -/
def chunkEvents (evt : BitVec 16) : Bool :=
  !raised .dropErr evt && !raised .dropEmpty evt && !raised .illegalDesc evt
    && exactlyOne (raised .resync evt) (raised .waitHeader evt) (raised .waitFrame evt) (raised .frameDone evt)
    && !(raised .resetMarker evt && raised .resync evt)
    && (!raised .thermalEmit evt || raised .frameDone evt)
    && (!raised .visibleEmit evt || raised .frameDone evt)
    && (!raised .jpegWarn evt || raised .visibleEmit evt)
    && (!raised .boundsSkip evt || raised .visibleEmit evt)
    && !evt.getLsbD 13 && !evt.getLsbD 14 && !evt.getLsbD 15

/-- The values EVT can have between transactions: 0 after RST (44 R183), the sets of 60 R213 after any other. -/
def possibleEvents (evt : BitVec 16) : Bool :=
  evt == 0 || evt == 1 || evt == 2 || evt == 4 || chunkEvents evt

/-! ## The invariant -/

/-- `BUF[i] = MARKER[i]` for every `i < min(len, 4)` (10 R31 point 2). -/
abbrev MarkerAtFront (d : FrameDecoder) : Prop :=
  ∀ i, i < min d.len.toNat 4 → d.buf.read i = Config.marker.getD i 0x00#8

/-- With `len ≥ 28` the frame is still incomplete: `LE32(8) + 28 > len` (10 R31 point 3). -/
abbrev FrameIncomplete (d : FrameDecoder) : Prop := 28 ≤ d.len.toNat → d.len.toNat < le32 d.buf 8 + 28

/-- What holds of the core's state between transactions. -/
structure DecoderInv (d : FrameDecoder) : Prop where
  /-- `BUF` keeps its canonical form, inside 0..C−1 (20 R50). -/
  buf_wf : d.buf.wf
  /-- `len ≤ C` (10 R22, R31 point 1). -/
  len_le : d.len.toNat ≤ Config.capacity
  /-- The marker stands at the front (10 R31 point 2). -/
  front : MarkerAtFront d
  /-- No complete frame survives its transaction (10 R31 point 3). -/
  incomplete : FrameIncomplete d
  /-- EVT holds a possible set of events (60 R213). -/
  events : possibleEvents d.evt = true

/-- The shape of a frame on its port: a ThermalFrame is 9600 bytes (30 R80); a VisibleFrame has at least 129 and ends in
128 zero bytes (30 R81, 43 R165). -/
def frameShape : Emission → Prop
  | .thermal bytes => bytes.length = 9600
  | .visible bytes _ => 129 ≤ bytes.length ∧ bytes.drop (bytes.length - 128) = List.replicate 128 0x00#8

/-- What holds of a transaction whose emission is held: it completed a frame, something is still to be accepted, and
it will leave the core EMPTY with one more frame counted (44 R188, R192). -/
structure HeldInv (d : FrameDecoder) (h : Held) : Prop where
  after_inv : DecoderInv h.after
  ends_empty : h.after.len = 0
  counted : h.after.frameCount = d.frameCount + 1
  completed : raised .frameDone h.after.evt = true
  waiting : h.pending ≠ []
  shapes : ∀ e ∈ h.pending, frameShape e

/-- The invariant of the machine. -/
structure Inv (s : State) : Prop where
  dec_inv : DecoderInv s.dec
  /-- `1 ≤ MAX_CHUNK ≤ C` (00 R8). -/
  maxChunk_pos : 1 ≤ s.maxChunk
  maxChunk_le : s.maxChunk ≤ Config.capacity
  held_inv : ∀ h, s.held = some h → HeldInv s.dec h
  shapes : ∀ e ∈ s.emitted, frameShape e

/-! ## The completion of a frame, by the table of events. `b` is `BUF` after the copy. -/

/-- The ThermalFrame that a completed frame in `b` emits; none where TS = 0 (44 R188). -/
abbrev thermalPart (b : Memory) : List Emission := if 0 < le32 b 12 then [.thermal (thermalFrame b)] else []

/-- The VisibleFrame, with its warning, that a completed frame in `b` emits; none where JS = 0 (44 R188). -/
abbrev visiblePart (b : Memory) : List Emission :=
  if 0 < le32 b 16 then
    [.visible (visibleFrame b (28 + le32 b 12) (le32 b 16)) (soiMissing (jpegSlice b (28 + le32 b 12) (le32 b 16)))]
  else []

/-- EVT after a CHUNK of `data` that completed a frame, bit by bit from the table of 60 R210: RESET_MARKER,
RESET_OVERFLOW, FRAME_DONE, THERMAL_EMIT, VISIBLE_EMIT, JPEG_WARN, BOUNDS_SKIP (44 R188, 43 R162, R163). -/
abbrev completedEvents (data : List Byte) (d : FrameDecoder) (b : Memory) : BitVec 16 :=
  let ts := le32 b 12
  let js := le32 b 16
  (if markerTest data then 0x0008#16 else 0#16) ||| (if overflowTest d data then 0x0010#16 else 0#16) ||| 0x0100#16
    ||| (if 0 < ts then 0x0200#16 else 0#16) ||| (if 0 < js then 0x0400#16 else 0#16)
    ||| (if 0 < js ∧ soiMissing (jpegSlice b (28 + ts) js) = true then 0x0800#16 else 0#16)
    ||| (if 0 < js ∧ 1048576 < 28 + ts + js then 0x1000#16 else 0#16)

/-- What a CHUNK that completed a frame leaves in the core (44 R188, R189): EMPTY, one more frame counted. -/
abbrev completedDecoder (data : List Byte) (d : FrameDecoder) (b : Memory) : FrameDecoder :=
  { buf := b, len := 0#21, frameCount := d.frameCount + 1#32, evt := completedEvents data d b }

/-! ## Streams -/

/-- The ThermalFrames of an output history, in order (44 R194). -/
def thermalFrames : List Emission → List (List Byte)
  | [] => []
  | .thermal b :: es => b :: thermalFrames es
  | .visible _ _ :: es => thermalFrames es

/-- The (VisibleFrame, vis_warn) pairs of an output history, in order (44 R194). -/
def visibleFrames : List Emission → List (List Byte × Bool)
  | [] => []
  | .thermal _ :: es => visibleFrames es
  | .visible b w :: es => (b, w) :: visibleFrames es

/-- The data of the CHUNKs among some transactions, in order. -/
def chunksOf : List Instr → List (List Byte)
  | [] => []
  | .chunk data :: is => data :: chunksOf is
  | .chunkErr _ _ :: is => chunksOf is
  | .illegal _ _ :: is => chunksOf is
  | .chunkEmpty :: is => chunksOf is
  | .rst :: is => chunksOf is

/-- `LE32(o)` of a byte sequence (00 R12); a byte past its end counts 0. -/
def le32Of (f : List Byte) (o : Nat) : Nat :=
  (f.getD o 0x00#8).toNat + 2 ^ 8 * (f.getD (o + 1) 0x00#8).toNat + 2 ^ 16 * (f.getD (o + 2) 0x00#8).toNat
    + 2 ^ 24 * (f.getD (o + 3) 0x00#8).toNat

/-- A well-formed frame (30 R79, 44 R195): the marker at its front, `|F| = 28 + FS`, `TS + JS ≤ FS`. -/
structure WellFormedFrame (f : List Byte) : Prop where
  front : f.take 4 = Config.marker
  size : f.length = 28 + le32Of f 8
  payload : le32Of f 12 + le32Of f 16 ≤ le32Of f 8

/-- The VisibleFrame, with its warning, that a well-formed frame emits, from its own bytes (43 R162); none where JS = 0. -/
def visibleOf (f : List Byte) : List (List Byte × Bool) :=
  let jpeg := (f.drop (28 + le32Of f 12)).take (le32Of f 16)
  if 0 < le32Of f 16 then [(jpeg ++ List.replicate 128 0x00#8, !(jpeg.take 2 == [0xFF#8, 0xD8#8]))] else []

/-- Both sinks accept every frame at once. -/
abbrev SinksReady (s : State) : Prop := s.thermalSink = Sink.accepting ∧ s.visibleSink = Sink.accepting

/-- A sink that accepts none of the core's offers, whatever answers it has queued (44 R192). -/
abbrev NeverAccepts (k : Sink) : Prop := k.standing = false ∧ ∀ b ∈ k.answers, b = false

/-- The step function iterated `k` times (the host's `run` of this machine). -/
abbrev runSteps (k : Nat) (s : State) : Host.Outcome State Fault Refusal := Sys2Proof.core.run k s

end Sys2Proof.Safety
end

