-- ==== Sys2Proof/Certificates/Slice0/Obligations.lean ====
section
/-! DEFINITION. The statements for the provers, from the numbered rules of the spec. -/

open Sys2Proof Sys2Proof.Machine Sys2Proof.Safety

/-! ## Encoding and decoding (30_encoding.md) -/

/-- Eight words of 95 §2.1, written out from 30 R71, decode as that section says, the last two of them at
MAX_CHUNK = 4096; and the reset pin decodes to RST (30 R83). -/
def Obligations.SampleDescriptorsDecode : Prop :=
  decode 1048576 (.transfer 0x00000000#32 []) = .ok .chunkEmpty
    ∧ decode 1048576 (.transfer 0x00000001#32 [0x5A#8]) = .ok (.chunk [0x5A#8])
    ∧ decode 1048576 (.transfer 0x00100001#32 []) = .ok (.illegal 0#10 0x100001#21)
    ∧ decode 1048576 (.transfer 0x7FE003FF#32 []) = .ok (.illegal 0x3FF#10 0x3FF#21)
    ∧ decode 1048576 (.transfer 0x80000007#32 []) = .ok (.chunkErr 0#10 7#21)
    ∧ decode 1048576 (.transfer 0xFFFFFFFF#32 []) = .ok (.chunkErr 0x3FF#10 0x1FFFFF#21)
    ∧ decode 4096 (.transfer 0x00001001#32 []) = .ok (.illegal 0#10 4097#21)
    ∧ (∀ data : List Byte, data.length = 4096 →
        decode 4096 (.transfer 0x00001000#32 data) = .ok (.chunk data))
    ∧ decode 4096 .rst = .ok .rst

/-- Decode inverts encode on every well-formed instruction, for every MAX_CHUNK ≤ C (30 R72, R85). -/
def Obligations.DecodeInvertsEncode : Prop :=
  ∀ (mc : Nat) (i : Instr), mc ≤ Config.capacity → WellFormed mc i → decode mc (encode i) = .ok i

/-- Encode inverts decode: the descriptor comes back bit for bit, the ignored fields of CHUNK_ERR and ILLEGAL included,
and the data phase of a successful, legal transfer comes back whole (30 R71, R72). -/
def Obligations.EncodeInvertsDecode : Prop :=
  ∀ (mc : Nat) (desc : Word) (data : List Byte) (i : Instr), decode mc (.transfer desc data) = .ok i →
    ∃ data', encode i = .transfer desc data'
      ∧ (descErr desc = false → descRsvd desc = 0 → (descLen desc).toNat ≤ mc → data' = data)

/-- 30 R72: the four conditions, tried in order, select the transaction, and every descriptor has one. The data phase of
the last two is `LEN` bytes (30 R70). -/
def Obligations.DecodeFollowsOrder : Prop :=
  ∀ (mc : Nat) (desc : Word),
    (∀ data, desc.getLsbD 31 = true →
        decode mc (.transfer desc data) = .ok (.chunkErr (desc.extractLsb' 21 10) (desc.extractLsb' 0 21)))
    ∧ (∀ data, desc.getLsbD 31 = false →
        (desc.extractLsb' 21 10 ≠ 0#10 ∨ mc < (desc.extractLsb' 0 21).toNat) →
        decode mc (.transfer desc data) = .ok (.illegal (desc.extractLsb' 21 10) (desc.extractLsb' 0 21)))
    ∧ (desc.getLsbD 31 = false → desc.extractLsb' 21 10 = 0#10 → desc.extractLsb' 0 21 = 0#21 →
        decode mc (.transfer desc []) = .ok .chunkEmpty)
    ∧ (∀ data : List Byte, desc.getLsbD 31 = false → desc.extractLsb' 21 10 = 0#10 →
        1 ≤ (desc.extractLsb' 0 21).toNat → (desc.extractLsb' 0 21).toNat ≤ mc →
        data.length = (desc.extractLsb' 0 21).toNat → decode mc (.transfer desc data) = .ok (.chunk data))
    ∧ ∃ data i, decode mc (.transfer desc data) = .ok i

/-- 30 R85: the opcode map's match, mask and condition of each row, where the row's transaction is what was decoded. -/
def Obligations.OpcodeMapMatches : Prop :=
  ∀ (mc : Nat) (desc : Word) (data : List Byte) (i : Instr), decode mc (.transfer desc data) = .ok i →
    (mnemonic i = "CHUNK_ERR" ↔ desc &&& 0x80000000#32 = 0x80000000#32)
    ∧ (mnemonic i = "ILLEGAL" ↔ desc &&& 0x80000000#32 = 0#32
        ∧ (desc.extractLsb' 21 10 ≠ 0#10 ∨ mc < (desc.extractLsb' 0 21).toNat))
    ∧ (mnemonic i = "CHUNK_EMPTY" ↔ desc &&& 0xFFFFFFFF#32 = 0#32)
    ∧ (mnemonic i = "CHUNK" ↔ desc &&& 0xFFE00000#32 = 0#32
        ∧ 1 ≤ (desc.extractLsb' 0 21).toNat ∧ (desc.extractLsb' 0 21).toNat ≤ mc)
    ∧ decode mc .rst = .ok .rst

/-- What the decoder gives is well formed: a CHUNK has 1 to MAX_CHUNK bytes, an ILLEGAL has an illegal field
(30 R72, R75). -/
def Obligations.DecodedIsWellFormed : Prop :=
  ∀ (mc : Nat) (ev : PortEvent) (i : Instr), decode mc ev = .ok i → WellFormed mc i

/-- 30 R88, `HDR fs ts js`: 28 bytes that, at the front of `BUF`, parse to the header with those three sizes. -/
def Obligations.HeaderPseudoParses : Prop :=
  ∀ (fs ts js : Word) (payload : List Byte) (m : Memory),
    (headerBytes fs ts js).length = 28
    ∧ (headerBytes fs ts js).take 4 = [0xEF#8, 0xBE#8, 0x00#8, 0x00#8]
    ∧ readHeader (m.write 0 (headerBytes fs ts js ++ payload))
        = { frameSize := fs.toNat, thermalSize := ts.toNat, jpgSize := js.toNat }

/-! ## The step (44 R181, R182, R192) -/

/-- A step of a core that holds no emission takes the transaction at the head of the input port off the port and runs
it: `exec` of what it decodes to (44 R181, R182, R193). -/
def Obligations.StepRunsDecodedTransaction : Prop :=
  ∀ (s : State) (ev : PortEvent) (rest : List PortEvent) (i : Instr),
    s.held = none → s.input = ev :: rest → decode s.maxChunk ev = .ok i →
    step s = exec i { s with input := rest }

/-- With no transaction presented and no emission held, the core is idle and holds its state (60 R224). -/
def Obligations.IdleCoreHoldsState : Prop :=
  ∀ s : State, s.held = none → s.input = [] → step s = .next s

/-- A data phase that is not `LEN` bytes long, under ERR = 0 and legal fields, is refused by name: the model's choice
where 30 R70 says a model may refuse it (log 6). -/
def Obligations.DataPhaseMismatchRefused : Prop :=
  ∀ (s : State) (desc : Word) (data : List Byte) (rest : List PortEvent),
    s.held = none → s.input = .transfer desc data :: rest →
    desc.getLsbD 31 = false → desc.extractLsb' 21 10 = 0#10 → (desc.extractLsb' 0 21).toNat ≤ s.maxChunk →
    data.length ≠ (desc.extractLsb' 0 21).toNat →
    step s = .refused (.undecodable .dataPhaseLength)

/-- What a step of a core that holds an emission does (44 R192, 20 R66). It takes no transaction, and offers the pending
frames in order: the frames accepted are emitted, the others stay held, and the hold ends exactly when none is left,
with the state the transaction had computed (until then the core's state stays: the model's reading, log 13). A frame
its sink refuses stays held with everything behind it; a frame accepted leaves the step the core would make without
it; and with [thermal, visible] pending, the thermal frame accepted and the visible one refused, the thermal frame
alone is emitted and the visible one stays held. -/
def Obligations.HoldLiftedOnlyByAcceptance : Prop :=
  ∀ (s : State) (h : Held), s.held = some h →
    (∃ t done rest, step s = .next t ∧ h.pending = done ++ rest ∧ t.emitted = s.emitted ++ done
        ∧ t.input = s.input ∧ t.maxChunk = s.maxChunk
        ∧ ((rest = [] ∧ t.held = none ∧ t.dec = h.after)
          ∨ (rest ≠ [] ∧ t.held = some { h with pending := rest } ∧ t.dec = s.dec)))
    ∧ (∀ e rest, h.pending = e :: rest → sinkAccepts e s = false → step s = .next (sinkAnswered e s))
    ∧ (∀ e rest, h.pending = e :: rest → sinkAccepts e s = true →
        step s = step { sinkAnswered e s with
          emitted := s.emitted ++ [e], held := some { h with pending := rest } })
    ∧ (∀ T V w, h.pending = [.thermal T, .visible V w] → s.thermalSink.accepts = true →
        s.visibleSink.accepts = false →
        step s = .next { s with
          thermalSink := s.thermalSink.answered, visibleSink := s.visibleSink.answered
          held := some { h with pending := [.visible V w] }, emitted := s.emitted ++ [.thermal T] })
    ∧ (SinksReady s →
        step s = .next { s with dec := h.after, held := none, emitted := s.emitted ++ h.pending })

/-- A sink that never accepts leaves the core held for ever: no number of steps takes a transaction, RST included, or
changes anything but the sink's queue of answers, which its refusals use up (44 R192, 70 R249). -/
def Obligations.NeverAcceptingSinkHoldsForever : Prop :=
  ∀ (s : State) (h : Held) (e : Emission) (rest : List Emission), s.held = some h → h.pending = e :: rest →
    ∀ k, match e with
      | .thermal _ => NeverAccepts s.thermalSink →
          runSteps k s
            = .next { s with thermalSink := { s.thermalSink with answers := s.thermalSink.answers.drop k } }
      | .visible _ _ => NeverAccepts s.visibleSink →
          runSteps k s
            = .next { s with visibleSink := { s.visibleSink with answers := s.visibleSink.answers.drop k } }

/-! ## Reset and the invariant -/

/-- The state RST leaves (10 R35, 70 R240, R241): the registers 0, STATE EMPTY, no frame in progress, `BUF` the
parameter BUF_INIT. -/
def Obligations.ResetLeavesTable : Prop :=
  ∀ (bufInit : Memory) (mc : Nat),
    (State.resetWith bufInit mc).dec = { buf := bufInit, len := 0#21, frameCount := 0#32, evt := 0#16 }
    ∧ fsmState (State.resetWith bufInit mc).dec = 0#2 ∧ (State.resetWith bufInit mc).held = none
    ∧ State.reset = State.resetWith [] 1048576

/-- The invariant holds after reset, for every BUF_INIT and every legal MAX_CHUNK (10 R31, 00 R8). -/
def Obligations.InvariantAfterReset : Prop :=
  ∀ (bufInit : Memory) (mc : Nat), bufInit.wf → 1 ≤ mc → mc ≤ Config.capacity →
    Inv (State.resetWith bufInit mc)

/-- Every step keeps the invariant: the canonical `BUF`, `len ≤ C`, the marker at the front, no complete frame left
over, a possible event set, and 9600-byte and padded frames only (10 R31, 60 R213, 30 R80, 43 R165). -/
def Obligations.EveryStepKeepsInvariant : Prop := ∀ s t : State, Inv s → step s = .next t → Inv t

/-- 44 R198: for every sequence of transactions, no step faults, and `len ≤ C` after every step; the only stop is the
refusal of a data phase outside the port's contract (log 6). -/
def Obligations.EveryRunStaysInBounds : Prop :=
  ∀ (k : Nat) (s : State), Inv s →
    (∃ t, runSteps k s = .next t ∧ t.dec.len.toNat ≤ Config.capacity)
      ∨ runSteps k s = .refused (.undecodable .dataPhaseLength)

/-! ## The no-op transactions and RST (44 §2, §4) -/

/-- 44 R184, CHUNK_ERR: `DESC[31] = 1` selects it whatever else the descriptor and the data phase hold; `EVT <- 0; raise
DROP_ERR`; nothing else changes. -/
def Obligations.ChunkErrDropsChunk : Prop :=
  (∀ (mc : Nat) (desc : Word) (data : List Byte), desc.getLsbD 31 = true →
      ∃ rsvd len, decode mc (.transfer desc data) = .ok (.chunkErr rsvd len))
    ∧ ∀ (rsvd : BitVec 10) (len : BitVec 21) (s : State),
      exec (.chunkErr rsvd len) s = .next { s with dec := { s.dec with evt := 0x0001#16 } }

/-- 44 R185, ILLEGAL: ERR = 0 with RSVD ≠ 0 or LEN > MAX_CHUNK selects it whatever data follow; `EVT <- 0; raise
ILLEGAL_DESC`; no other state changes, nothing traps. -/
def Obligations.IllegalDropsDescriptor : Prop :=
  (∀ (mc : Nat) (desc : Word) (data : List Byte), desc.getLsbD 31 = false →
      (desc.extractLsb' 21 10 ≠ 0#10 ∨ mc < (desc.extractLsb' 0 21).toNat) →
      ∃ rsvd len, decode mc (.transfer desc data) = .ok (.illegal rsvd len))
    ∧ ∀ (rsvd : BitVec 10) (len : BitVec 21) (s : State),
      exec (.illegal rsvd len) s = .next { s with dec := { s.dec with evt := 0x0004#16 } }

/-- 44 R186, CHUNK_EMPTY: `DESC = 0` selects it; `EVT <- 0; raise DROP_EMPTY`; no other state changes, a full buffer
included. -/
def Obligations.ChunkEmptyDropsChunk : Prop :=
  (∀ mc : Nat, decode mc (.transfer 0#32 []) = .ok .chunkEmpty)
    ∧ ∀ s : State, exec .chunkEmpty s = .next { s with dec := { s.dec with evt := 0x0002#16 } }

/-- 44 R190, RST: `len <- 0; frame_count <- 0; EVT <- 0`, STATE EMPTY; `BUF` unchanged; frames emitted stay emitted; and a
step of a core that holds an emission takes no transaction, RST included. -/
def Obligations.RstClearsRegisters : Prop :=
  (∀ s : State, ∃ t, exec .rst s = .next t
      ∧ t = { s with dec := { s.dec with len := 0#21, frameCount := 0#32, evt := 0#16 } }
      ∧ fsmState t.dec = 0#2)
    ∧ ∀ (s t : State) (h : Held), s.held = some h → step s = .next t → t.input = s.input

/-! ## The tests of the append (40 §3) -/

/-- 40 R102, test `M`. -/
def Obligations.MarkerTestMatchesRule : Prop :=
  ∀ d : List Byte, markerTest d = true ↔
    (4 ≤ d.length ∧ d[0]? = some 0xEF#8 ∧ d[1]? = some 0xBE#8 ∧ d[2]? = some 0x00#8 ∧ d[3]? = some 0x00#8)

/-- 40 R103, test `O`: exact, and `≥`. -/
def Obligations.OverflowTestMatchesRule : Prop :=
  ∀ (d : FrameDecoder) (data : List Byte), overflowTest d data = true ↔ d.len.toNat + data.length ≥ 1048576

/-- 40 R105: the copy. After a CHUNK of 1 to C bytes every byte of `BUF` at `base + k` is the chunk's byte `k`, every
other byte is as before, and the copy stays inside `BUF` (corner 1); a failing front test (40 R104) empties the buffer
with RESYNC, a passing one leaves `len = base + L`. -/
def Obligations.AppendMatchesRule : Prop :=
  ∀ (data : List Byte) (d : FrameDecoder), 1 ≤ data.length → data.length ≤ 1048576 →
    let base := if markerTest data = true ∨ overflowTest d data = true then 0 else d.len.toNat
    let r := appendChunk data d
    base + data.length ≤ 1048576
    ∧ (∀ a, r.1.buf.read a
        = if base ≤ a ∧ a < base + data.length then data.getD (a - base) 0#8 else d.buf.read a)
    ∧ r.1.frameCount = d.frameCount
    ∧ (if ∀ i, i < min (base + data.length) 4 → r.1.buf.read i = [0xEF#8, 0xBE#8, 0x00#8, 0x00#8].getD i 0#8
        then r.2 = .kept ∧ r.1.len.toNat = base + data.length
        else r.2 = .resynced ∧ r.1.len = 0#21)
    ∧ ∀ e, raised e r.1.evt = (raised e d.evt || (markerTest data && decide (e = .resetMarker))
        || (overflowTest d data && decide (e = .resetOverflow)) || (decide (r.2 = .resynced) && decide (e = .resync)))

/-! ## CHUNK (44 R187, R188): its four ends. `b` is `BUF` after the copy, `n` the cursor after it. -/

/-- CHUNK whose copy leaves a front that is not the marker's: RESYNC, EMPTY, nothing emitted (40 R105, 44 R191). -/
def Obligations.ChunkResyncs : Prop :=
  ∀ (data : List Byte) (s : State), 1 ≤ data.length → data.length ≤ s.maxChunk → s.maxChunk ≤ 1048576 →
    s.held = none →
    let b := s.dec.buf.write (appendBase s.dec data) data
    let n := appendBase s.dec data + data.length
    (∃ i, i < min n 4 ∧ b.read i ≠ [0xEF#8, 0xBE#8, 0x00#8, 0x00#8].getD i 0#8) →
    exec (.chunk data) s = .next { s with dec :=
      { buf := b, len := 0#21, frameCount := s.dec.frameCount
        evt := (if markerTest data then 0x0008#16 else 0#16) ||| (if overflowTest s.dec data then 0x0010#16 else 0#16)
          ||| 0x0020#16 } }

/-- CHUNK kept with at most 27 bytes: WAIT_HEADER, `len = n` (44 R187, R191). -/
def Obligations.ChunkWaitsForHeader : Prop :=
  ∀ (data : List Byte) (s : State), 1 ≤ data.length → data.length ≤ s.maxChunk → s.maxChunk ≤ 1048576 →
    s.held = none →
    let b := s.dec.buf.write (appendBase s.dec data) data
    let n := appendBase s.dec data + data.length
    (∀ i, i < min n 4 → b.read i = [0xEF#8, 0xBE#8, 0x00#8, 0x00#8].getD i 0#8) → n ≤ 27 →
    exec (.chunk data) s = .next { s with dec :=
      { buf := b, len := BitVec.ofNat 21 n, frameCount := s.dec.frameCount
        evt := (if markerTest data then 0x0008#16 else 0#16) ||| (if overflowTest s.dec data then 0x0010#16 else 0#16)
          ||| 0x0040#16 } }

/-- CHUNK kept with a header but `FS + 28 > n`: WAIT_FRAME, `len = n`, nothing emitted (41 R124, R126, 44 R187). -/
def Obligations.ChunkWaitsForFrame : Prop :=
  ∀ (data : List Byte) (s : State), 1 ≤ data.length → data.length ≤ s.maxChunk → s.maxChunk ≤ 1048576 →
    s.held = none →
    let b := s.dec.buf.write (appendBase s.dec data) data
    let n := appendBase s.dec data + data.length
    (∀ i, i < min n 4 → b.read i = [0xEF#8, 0xBE#8, 0x00#8, 0x00#8].getD i 0#8) → 28 ≤ n → n < le32 b 8 + 28 →
    exec (.chunk data) s = .next { s with dec :=
      { buf := b, len := BitVec.ofNat 21 n, frameCount := s.dec.frameCount
        evt := (if markerTest data then 0x0008#16 else 0#16) ||| (if overflowTest s.dec data then 0x0010#16 else 0#16)
          ||| 0x0080#16 } }

/-- CHUNK that completes a frame, every sink it asks accepting (44 R188, R189): the thermal frame if TS > 0, then the
visible frame with its warning if JS > 0; the counter incremented; `len = 0`; the events of 60 R210. A sink with
nothing to receive is not asked, and what it would answer does not matter. -/
def Obligations.ChunkCompletesFrame : Prop :=
  ∀ (data : List Byte) (s : State), 1 ≤ data.length → data.length ≤ s.maxChunk → s.maxChunk ≤ 1048576 →
    s.held = none →
    let b := s.dec.buf.write (appendBase s.dec data) data
    let n := appendBase s.dec data + data.length
    (∀ i, i < min n 4 → b.read i = [0xEF#8, 0xBE#8, 0x00#8, 0x00#8].getD i 0#8) → 28 ≤ n → le32 b 8 + 28 ≤ n →
    (0 < le32 b 12 → s.thermalSink.accepts = true) → (0 < le32 b 16 → s.visibleSink.accepts = true) →
    exec (.chunk data) s = .next { s with
      dec := completedDecoder data s.dec b
      thermalSink := if 0 < le32 b 12 then s.thermalSink.answered else s.thermalSink
      visibleSink := if 0 < le32 b 16 then s.visibleSink.answered else s.visibleSink
      emitted := s.emitted ++ thermalPart b ++ visiblePart b }

/-- A completing CHUNK whose thermal sink does not accept is held before anything is emitted: both frames wait in order
with the result the transaction will leave, events included, and the core's state stays that before the transaction
(44 R188, R192, 20 R59; that it stays so in a hold is the model's reading, log 13). -/
def Obligations.ChunkHeldByThermalSink : Prop :=
  ∀ (data : List Byte) (s : State), 1 ≤ data.length → data.length ≤ s.maxChunk → s.maxChunk ≤ 1048576 →
    s.held = none → s.thermalSink.accepts = false →
    let b := s.dec.buf.write (appendBase s.dec data) data
    let n := appendBase s.dec data + data.length
    (∀ i, i < min n 4 → b.read i = [0xEF#8, 0xBE#8, 0x00#8, 0x00#8].getD i 0#8) → 28 ≤ n → le32 b 8 + 28 ≤ n →
    0 < le32 b 12 →
    exec (.chunk data) s = .next { s with
      thermalSink := s.thermalSink.answered
      held := some
        { after := completedDecoder data s.dec b, pending := .thermal (thermalFrame b) :: visiblePart b } }

/-- A completing CHUNK whose visible sink does not accept, the thermal sink accepting its frame if there is one: the
thermal frame is emitted, the visible frame waits with the result the transaction will leave, and the core's state
stays that before the transaction (44 R188, R192, 20 R66; that it stays so in a hold is the model's reading, log 13). -/
def Obligations.ChunkHeldByVisibleSink : Prop :=
  ∀ (data : List Byte) (s : State), 1 ≤ data.length → data.length ≤ s.maxChunk → s.maxChunk ≤ 1048576 →
    s.held = none → s.visibleSink.accepts = false →
    let b := s.dec.buf.write (appendBase s.dec data) data
    let n := appendBase s.dec data + data.length
    (∀ i, i < min n 4 → b.read i = [0xEF#8, 0xBE#8, 0x00#8, 0x00#8].getD i 0#8) → 28 ≤ n → le32 b 8 + 28 ≤ n →
    (0 < le32 b 12 → s.thermalSink.accepts = true) → 0 < le32 b 16 →
    exec (.chunk data) s = .next { s with
      thermalSink := if 0 < le32 b 12 then s.thermalSink.answered else s.thermalSink
      visibleSink := s.visibleSink.answered
      held := some { after := completedDecoder data s.dec b, pending := visiblePart b }
      emitted := s.emitted ++ thermalPart b }

/-! ## What every transaction leaves alone -/

/-- The frame of the four transactions that are no CHUNK (44 R180, R184-R186, R190, 20 R60): `BUF` keeps every byte, the
output history and the ports stay, and `len` and `frame_count` change under RST alone. -/
def Obligations.OthersFrame : Prop :=
  ∀ (i : Instr) (s : State), (∀ data, i ≠ .chunk data) →
    ∃ t, exec i s = .next t ∧ t.dec.buf = s.dec.buf ∧ (∀ a, t.dec.buf.read a = s.dec.buf.read a)
      ∧ t.maxChunk = s.maxChunk ∧ t.input = s.input ∧ t.held = s.held ∧ t.thermalSink = s.thermalSink
      ∧ t.visibleSink = s.visibleSink ∧ t.emitted = s.emitted
      ∧ (i ≠ .rst → t.dec.len = s.dec.len ∧ t.dec.frameCount = s.dec.frameCount)

/-- The frame of CHUNK: every byte of `BUF` outside the `L` bytes from the copy's base on stays, in the state it leaves
and in the one a hold will leave; MAX_CHUNK and the input port stay; frames are only appended to the output history;
`frame_count` changes with FRAME_DONE alone (20 R60, 40 R105, 44 R189); and a CHUNK that is held leaves the core's state
as it was until its last frame is accepted (44 R192, 20 R59; the model's reading, log 13). -/
def Obligations.ChunkFrame : Prop :=
  ∀ (data : List Byte) (s t : State), exec (.chunk data) s = .next t →
    (∀ a, (a < appendBase s.dec data ∨ appendBase s.dec data + data.length ≤ a) →
        t.dec.buf.read a = s.dec.buf.read a
        ∧ ∀ h, t.held = some h → h.after.buf.read a = s.dec.buf.read a)
    ∧ t.maxChunk = s.maxChunk ∧ t.input = s.input
    ∧ (∃ es, t.emitted = s.emitted ++ es)
    ∧ (t.held = none → t.dec.frameCount
        = if raised .frameDone t.dec.evt then s.dec.frameCount + 1#32 else s.dec.frameCount)
    ∧ (t.held ≠ none → t.dec = s.dec)

/-- 44 R189: a transaction that ends increments `frame_count`, modulo 2^32, exactly when it completed a frame, whether or
not it emitted anything; RST clears it; nothing else writes it. -/
def Obligations.CounterCountsFrames : Prop :=
  ∀ (i : Instr) (s t : State), exec i s = .next t → t.held = none →
    t.dec.frameCount.toNat =
      if i = .rst then 0
      else if raised .frameDone t.dec.evt then (s.dec.frameCount.toNat + 1) % 4294967296
      else s.dec.frameCount.toNat

/-- No step changes MAX_CHUNK, and the output history only grows (00 R8, 44 R190: outputs emitted stay emitted). -/
def Obligations.OutputsStayEmitted : Prop :=
  ∀ s t : State, step s = .next t → t.maxChunk = s.maxChunk ∧ ∃ es, t.emitted = s.emitted ++ es

/-! ## Events and the FSM (60 R213, 44 R191) -/

/-- 60 R213: the sets of events a transaction that ends can raise. -/
def Obligations.EventSetsArePossible : Prop :=
  ∀ (i : Instr) (s t : State), exec i s = .next t → s.held = none → t.held = none →
    match i with
    | .chunkErr _ _ => t.dec.evt = 0x0001#16
    | .illegal _ _ => t.dec.evt = 0x0004#16
    | .chunkEmpty => t.dec.evt = 0x0002#16
    | .chunk data => chunkEvents t.dec.evt = true
        ∧ (markerTest data = true → overflowTest s.dec data = true →
            raised .resetMarker t.dec.evt = true ∧ raised .resetOverflow t.dec.evt = true)
    | .rst => t.dec.evt = 0x0000#16

/-- 44 R191 for CHUNK: each final event and the STATE it leads to, from every state. -/
def Obligations.ChunkTransitions : Prop :=
  ∀ (data : List Byte) (s t : State), exec (.chunk data) s = .next t → t.held = none →
    (raised .resync t.dec.evt = true → fsmState t.dec = 0#2)
    ∧ (raised .waitHeader t.dec.evt = true → fsmState t.dec = 1#2)
    ∧ (raised .waitFrame t.dec.evt = true → fsmState t.dec = 2#2)
    ∧ (raised .frameDone t.dec.evt = true → fsmState t.dec = 0#2)

/-- A chunk that begins with the marker starts at index 0 and never resyncs (40 R105 corner 3, 60 R213 point 3). -/
def Obligations.MarkerChunkNeverResyncs : Prop :=
  ∀ (data : List Byte) (s : State), markerTest data = true → data.length ≤ s.maxChunk → s.maxChunk ≤ 1048576 →
    s.held = none →
    ∃ t, exec (.chunk data) s = .next t
      ∧ (t.held = none → raised .resync t.dec.evt = false ∧ raised .resetMarker t.dec.evt = true
          ∧ ∀ k, k < data.length → t.dec.buf.read k = data.getD k 0#8)
      ∧ ∀ h, t.held = some h → raised .resync h.after.evt = false ∧ raised .resetMarker h.after.evt = true
          ∧ ∀ k, k < data.length → h.after.buf.read k = data.getD k 0#8

/-- An overflowing chunk of 4 bytes or more that is no marker chunk ends with `len = 0`, whatever the buffer held
(40 R105 corner 4, 44 R198). -/
def Obligations.OverflowingNoiseEmptiesBuffer : Prop :=
  ∀ (data : List Byte) (s : State), 4 ≤ data.length → data.length ≤ s.maxChunk → s.maxChunk ≤ 1048576 →
    s.held = none → markerTest data = false → 1048576 ≤ s.dec.len.toNat + data.length →
    exec (.chunk data) s = .next { s with dec :=
      { buf := s.dec.buf.write 0 data, len := 0#21, frameCount := s.dec.frameCount, evt := 0x0030#16 } }

/-- Noise of 4 bytes or more into an EMPTY core is dropped at once, a marker inside it unseen (40 R105 corners 7 and 8,
70 R246). -/
def Obligations.NoiseIntoEmptyIsDropped : Prop :=
  ∀ (data : List Byte) (s : State), 4 ≤ data.length → data.length ≤ s.maxChunk → s.maxChunk ≤ 1048576 →
    s.held = none → s.dec.len = 0#21 → markerTest data = false → data.length < 1048576 →
    exec (.chunk data) s = .next { s with dec :=
      { buf := s.dec.buf.write 0 data, len := 0#21, frameCount := s.dec.frameCount, evt := 0x0020#16 } }

/-! ## Header and completion gate (41_header_gate.md) -/

/-- 41 R120, R121: a header exactly when `len ≥ 28`, with the three little-endian fields, each a 32-bit value. -/
def Obligations.TryParseMatchesRule : Prop :=
  ∀ d : FrameDecoder,
    (d.len.toNat < 28 → tryParse d = none)
    ∧ (28 ≤ d.len.toNat → ∃ h, tryParse d = some h
        ∧ h.frameSize = (d.buf.read 8).toNat + 256 * (d.buf.read 9).toNat + 65536 * (d.buf.read 10).toNat
            + 16777216 * (d.buf.read 11).toNat
        ∧ h.thermalSize = (d.buf.read 12).toNat + 256 * (d.buf.read 13).toNat + 65536 * (d.buf.read 14).toNat
            + 16777216 * (d.buf.read 15).toNat
        ∧ h.jpgSize = (d.buf.read 16).toNat + 256 * (d.buf.read 17).toNat + 65536 * (d.buf.read 18).toNat
            + 16777216 * (d.buf.read 19).toNat
        ∧ h.frameSize < 4294967296 ∧ h.thermalSize < 4294967296 ∧ h.jpgSize < 4294967296)

/-- 41 R122, 30 R78: bytes 0-7 and 20-27 of the header, and every other byte of `BUF`, change nothing of the parse. -/
def Obligations.UnusedHeaderBytesIgnored : Prop :=
  ∀ (d : FrameDecoder) (m : Memory), (∀ a, 8 ≤ a → a < 20 → m.read a = d.buf.read a) →
    tryParse { d with buf := m } = tryParse d

/-- 41 R124, R125, R127: the completion test is exact, so no FS in 0xFFFFFFE4..0xFFFFFFFF and no frame of more than C
bytes is ever complete. -/
def Obligations.CompletionTestIsExact : Prop :=
  (∀ fs len : Nat, isComplete fs len = true ↔ fs + 28 ≤ len)
    ∧ ∀ d : FrameDecoder, d.len.toNat ≤ 1048576 → 1048548 < (readHeader d.buf).frameSize →
      isComplete (readHeader d.buf).frameSize d.len.toNat = false

/-! ## ThermalExtractor (42_thermal.md) -/

/-- 42 R148: the ThermalFrame is the 60 runs of 160 bytes from `BUF[60 + 164·y]` on, 9600 bytes in all. -/
def Obligations.ThermalFrameIsWindowCopy : Prop :=
  ∀ m : Memory, (thermalFrame m).length = 9600
    ∧ ∀ y j, y < 60 → j < 160 → (thermalFrame m)[160 * y + j]? = some (m.read (60 + 164 * y + j))

/-- 42 R141, R142, 30 R80: byte `2·(80·y + x)` is the low byte and the next the high byte of the little-endian sample at
`BUF[60 + 164·y + 2·x]`. -/
def Obligations.ThermalSampleBytes : Prop :=
  ∀ (m : Memory) (x y : Nat), x < 80 → y < 60 →
    ∃ lo hi : Byte, (thermalFrame m)[2 * (80 * y + x)]? = some lo ∧ (thermalFrame m)[2 * (80 * y + x) + 1]? = some hi
      ∧ (thermalSample m x y).toNat = lo.toNat + 256 * hi.toNat
      ∧ (thermalSample m x y).toNat
          = (m.read (60 + 164 * y + 2 * x)).toNat + 256 * (m.read (60 + 164 * y + 2 * x + 1)).toNat

/-- 20 R62, 42 R147: the ThermalFrame depends on the window's bytes alone; the 4 bytes between two rows, and all bytes
outside `BUF[60..9895]`, do not enter. -/
def Obligations.ThermalReadsWindowOnly : Prop :=
  ∀ m m' : Memory, (∀ y j, y < 60 → j < 160 → m.read (60 + 164 * y + j) = m'.read (60 + 164 * y + j)) →
    thermalFrame m = thermalFrame m'

/-- 42 R151, 95 E4: the samples of the payload `pay[p] = (7·p + 3) mod 256`. -/
def Obligations.SyntheticPayloadSamples : Prop :=
  ∀ m : Memory, (∀ p, p < 9868 → m.read (28 + p) = BitVec.ofNat 8 (7 * p + 3)) →
    thermalSample m 0 0 = 0xEAE3#16 ∧ thermalSample m 1 0 = 0xF8F1#16 ∧ thermalSample m 79 0 = 0x3C35#16
      ∧ thermalSample m 0 1 = 0x665F#16 ∧ thermalSample m 79 59 = 0xD0C9#16

/-! ## VisibleExtractor (43_visible.md) -/

/-- 43 R162, R165: the VisibleFrame is the JS slice bytes, 0x00 for each index ≥ C, then 128 zero bytes: JS + 128 in all. -/
def Obligations.VisibleFrameBytes : Prop :=
  ∀ (m : Memory) (ts js : Nat),
    (visibleFrame m (28 + ts) js).length = js + 128
    ∧ (∀ i, i < js → (visibleFrame m (28 + ts) js)[i]?
        = some (if 28 + ts + i ≤ 1048575 then m.read (28 + ts + i) else 0x00#8))
    ∧ ∀ i, i < 128 → (visibleFrame m (28 + ts) js)[js + i]? = some 0x00#8

/-- 43 R163, R164: `warn` is 0 exactly when JS ≥ 2 and the slice begins FF D8; a one-byte slice fails. -/
def Obligations.SoiWarningMatchesRule : Prop :=
  ∀ (m : Memory) (ts js : Nat), soiMissing (jpegSlice m (28 + ts) js) = false ↔
    (2 ≤ js ∧ (visibleFrame m (28 + ts) js)[0]? = some 0xFF#8 ∧ (visibleFrame m (28 + ts) js)[1]? = some 0xD8#8)

/-- 43 R167: for a complete frame with `TS + JS ≤ FS` every slice byte lies inside the frame, so none is stale and none
is skipped. -/
def Obligations.ConsistentHeaderStaysInFrame : Prop :=
  ∀ (fs ts js len : Nat), isComplete fs len = true → len ≤ 1048576 → ts + js ≤ fs →
    visibleSkips (visibleBase ts) js = false ∧ ∀ i, i < js → visibleBase ts + i < len

/-! ## Status port (10 R28, R29) -/

/-- The table of 10 R28, its four words with every bit not listed 0, and the STATE encoding of 10 R29; 3 never occurs. -/
def Obligations.StatusPortMatchesMap : Prop :=
  ∀ s : State,
    (statusRead 0#2 s).toNat
        = (if s.dec.len.toNat = 0 then 0 else if s.dec.len.toNat ≤ 27 then 1 else 2)
    ∧ (statusRead 1#2 s).toNat = s.dec.len.toNat
    ∧ statusRead 2#2 s = s.dec.frameCount
    ∧ (statusRead 3#2 s).toNat = s.dec.evt.toNat
    ∧ fsmState s.dec ≠ 3#2

/-! ## The properties of §8 of the source, under their premises (44 R195-R197) -/

/-- 44 R195, exact framing and chunk-boundary independence: a well-formed frame `f`, cut into chunks under premises
(a)-(d), completes in the transaction of its last chunk and in no earlier one, with the emissions of `f` copied whole
over the starting `BUF`, whatever the cut. -/
def Obligations.SplitFrameDecodesAsWhole : Prop :=
  ∀ (f : List Byte) (front : List Instr) (last : List Byte) (rest : List PortEvent) (s : State),
    let is := front ++ [.chunk last]
    let b := s.dec.buf.write 0 f
    Inv s → s.held = none → SinksReady s → WellFormedFrame f →
    (∀ i ∈ is, WellFormed s.maxChunk i ∧ i ≠ .rst) →
    (chunksOf is).flatten = f →
    (s.dec.len = 0#21 ∨ 4 ≤ ((chunksOf is).headD []).length) →
    (∀ c ∈ (chunksOf is).tail, markerTest c = false) →
    (f.length ≤ 1048575 ∨ (chunksOf is).length = 1) →
    s.input = is.map encode ++ rest →
    (∀ k, k < is.length → ∃ u, runSteps k s = .next u ∧ u.emitted = s.emitted
        ∧ u.dec.frameCount = s.dec.frameCount)
    ∧ ∃ t, runSteps is.length s = .next t ∧ t.held = none ∧ t.input = rest ∧ t.dec.len = 0#21
        ∧ t.dec.frameCount = s.dec.frameCount + 1#32 ∧ raised .frameDone t.dec.evt = true
        ∧ (∀ a, t.dec.buf.read a = b.read a)
        ∧ t.emitted = s.emitted
            ++ (if 0 < le32Of f 12 then [.thermal (thermalFrame b)] else [])
            ++ (if 0 < le32Of f 16 then
                  [.visible (visibleFrame b (28 + le32Of f 12) (le32Of f 16))
                    (soiMissing (jpegSlice b (28 + le32Of f 12) (le32Of f 16)))]
                else [])

/-- 44 R196, with the exception of 42 R147 and 70 R248: what the buffer held before a well-formed frame never enters its
VisibleFrame. Of the ThermalFrame it enters the part of `BUF[60..9895]` beyond the frame's end, and that alone: nothing
of a frame of 9896 bytes or more, and always something of a shorter one. -/
def Obligations.EarlierBytesReachOnlyShortThermalFrames : Prop :=
  ∀ f : List Byte, WellFormedFrame f → f.length ≤ 1048576 →
    (∀ m m' : Memory, visibleFrame (m.write 0 f) (28 + le32Of f 12) (le32Of f 16)
        = visibleFrame (m'.write 0 f) (28 + le32Of f 12) (le32Of f 16))
    ∧ (∀ m m' : Memory, (∀ a, f.length ≤ a → a < 9896 → m.read a = m'.read a) →
        thermalFrame (m.write 0 f) = thermalFrame (m'.write 0 f))
    ∧ (9896 ≤ f.length → ∀ m m' : Memory, thermalFrame (m.write 0 f) = thermalFrame (m'.write 0 f))
    ∧ (f.length < 9896 → ∃ m m' : Memory, thermalFrame (m.write 0 f) ≠ thermalFrame (m'.write 0 f))

/-- 44 R197, multi-frame stream, each frame in a chunk of its own: N well-formed frames give N completions, in order,
each VisibleFrame from its own frame's bytes, and one ThermalFrame for each frame with TS > 0. -/
def Obligations.FrameStreamEmitsEachInOrder : Prop :=
  ∀ (fs : List (List Byte)) (rest : List PortEvent) (s : State),
    Inv s → s.held = none → SinksReady s → (∀ f ∈ fs, WellFormedFrame f ∧ f.length ≤ s.maxChunk) →
    s.input = fs.map chunkOf ++ rest →
    ∃ t, runSteps fs.length s = .next t ∧ t.held = none ∧ t.input = rest
      ∧ (fs ≠ [] → t.dec.len = 0#21)
      ∧ t.dec.frameCount = s.dec.frameCount + BitVec.ofNat 32 fs.length
      ∧ visibleFrames t.emitted = visibleFrames s.emitted ++ fs.flatMap visibleOf
      ∧ (thermalFrames t.emitted).length
          = (thermalFrames s.emitted).length + (fs.filter fun f => decide (0 < le32Of f 12)).length

/-- 70 R245, 44 R197: a chunk that begins with a well-formed frame and goes on emits that frame's VisibleFrame if JS > 0
and one ThermalFrame if TS > 0, counts once and discards the rest, be it the start of another frame. The ThermalFrame is
the window of `BUF` after the whole chunk is copied (40 R105, 42 R147; DEDUCED against a table's text, log 15). -/
def Obligations.BytesAfterFrameAreDiscarded : Prop :=
  ∀ (f tail : List Byte) (s : State), WellFormedFrame f → (f ++ tail).length ≤ s.maxChunk → s.maxChunk ≤ 1048576 →
    s.held = none → SinksReady s →
    ∃ t, exec (.chunk (f ++ tail)) s = .next t ∧ t.held = none ∧ t.dec.len = 0#21
      ∧ t.dec.frameCount = s.dec.frameCount + 1#32
      ∧ visibleFrames t.emitted = visibleFrames s.emitted ++ visibleOf f
      ∧ thermalFrames t.emitted = thermalFrames s.emitted
          ++ (if 0 < le32Of f 12 then [thermalFrame (s.dec.buf.write 0 (f ++ tail))] else [])
      ∧ (thermalFrames t.emitted).length
          = (thermalFrames s.emitted).length + (if 0 < le32Of f 12 then 1 else 0)
end

