-- ==== Sys2Proof/Laws/State.lean ====
section
/-! SUPPORT. One lemma per field per update of the state, true by `rfl`, so that no proof unfolds a record update. -/
namespace Sys2Proof.Machine

/-! ## Updates of the core's state -/

@[simp] theorem clearEvents_buf (d : FrameDecoder) : (clearEvents d).buf = d.buf := rfl
@[simp] theorem clearEvents_len (d : FrameDecoder) : (clearEvents d).len = d.len := rfl
@[simp] theorem clearEvents_frameCount (d : FrameDecoder) : (clearEvents d).frameCount = d.frameCount := rfl
@[simp] theorem clearEvents_evt (d : FrameDecoder) : (clearEvents d).evt = 0 := rfl

@[simp] theorem raiseEvent_buf (e : Event) (d : FrameDecoder) : (raiseEvent e d).buf = d.buf := rfl
@[simp] theorem raiseEvent_len (e : Event) (d : FrameDecoder) : (raiseEvent e d).len = d.len := rfl
@[simp] theorem raiseEvent_frameCount (e : Event) (d : FrameDecoder) :
    (raiseEvent e d).frameCount = d.frameCount := rfl
@[simp] theorem raiseEvent_evt (e : Event) (d : FrameDecoder) : (raiseEvent e d).evt = raise e d.evt := rfl

@[simp] theorem raiseEventIf_buf (c : Bool) (e : Event) (d : FrameDecoder) : (raiseEventIf c e d).buf = d.buf := rfl
@[simp] theorem raiseEventIf_len (c : Bool) (e : Event) (d : FrameDecoder) : (raiseEventIf c e d).len = d.len := rfl
@[simp] theorem raiseEventIf_frameCount (c : Bool) (e : Event) (d : FrameDecoder) :
    (raiseEventIf c e d).frameCount = d.frameCount := rfl
@[simp] theorem raiseEventIf_evt (c : Bool) (e : Event) (d : FrameDecoder) :
    (raiseEventIf c e d).evt = raiseIf c e d.evt := rfl

@[simp] theorem resetCursor_buf (d : FrameDecoder) : (resetCursor d).buf = d.buf := rfl
@[simp] theorem resetCursor_len (d : FrameDecoder) : (resetCursor d).len = 0 := rfl
@[simp] theorem resetCursor_frameCount (d : FrameDecoder) : (resetCursor d).frameCount = d.frameCount := rfl
@[simp] theorem resetCursor_evt (d : FrameDecoder) : (resetCursor d).evt = d.evt := rfl

@[simp] theorem copyChunk_buf (data : List Byte) (d : FrameDecoder) :
    (copyChunk data d).buf = d.buf.write (appendBase d data) data := rfl
@[simp] theorem copyChunk_len (data : List Byte) (d : FrameDecoder) :
    (copyChunk data d).len = BitVec.ofNat 21 (appendBase d data + data.length) := rfl
@[simp] theorem copyChunk_frameCount (data : List Byte) (d : FrameDecoder) :
    (copyChunk data d).frameCount = d.frameCount := rfl
@[simp] theorem copyChunk_evt (data : List Byte) (d : FrameDecoder) :
    (copyChunk data d).evt
      = raiseIf (overflowTest d data) .resetOverflow (raiseIf (markerTest data) .resetMarker d.evt) := rfl

@[simp] theorem completeFrame_buf (h : FrameHeader) (d : FrameDecoder) : (completeFrame h d).buf = d.buf := rfl
@[simp] theorem completeFrame_len (h : FrameHeader) (d : FrameDecoder) : (completeFrame h d).len = 0 := rfl
/-- The counter counts modulo 2^32 (44 R189, 10 R23). -/
theorem frameCount_succ_toNat (c : BitVec Config.counterWidth) : (c + 1).toNat = (c.toNat + 1) % 4294967296 := rfl

@[simp] theorem completeFrame_frameCount (h : FrameHeader) (d : FrameDecoder) :
    (completeFrame h d).frameCount = d.frameCount + 1 := rfl
@[simp] theorem completeFrame_evt (h : FrameHeader) (d : FrameDecoder) :
    (completeFrame h d).evt = completionEvents h d.buf d.evt := rfl

/-! ## Updates of the machine -/

@[simp] theorem dropWith_dec (e : Event) (s : State) : (dropWith e s).dec = raiseEvent e (clearEvents s.dec) := rfl
@[simp] theorem dropWith_maxChunk (e : Event) (s : State) : (dropWith e s).maxChunk = s.maxChunk := rfl
@[simp] theorem dropWith_input (e : Event) (s : State) : (dropWith e s).input = s.input := rfl
@[simp] theorem dropWith_held (e : Event) (s : State) : (dropWith e s).held = s.held := rfl
@[simp] theorem dropWith_thermalSink (e : Event) (s : State) : (dropWith e s).thermalSink = s.thermalSink := rfl
@[simp] theorem dropWith_visibleSink (e : Event) (s : State) : (dropWith e s).visibleSink = s.visibleSink := rfl
@[simp] theorem dropWith_emitted (e : Event) (s : State) : (dropWith e s).emitted = s.emitted := rfl

@[simp] theorem sinkAnswered_dec (e : Emission) (s : State) : (sinkAnswered e s).dec = s.dec := by cases e <;> rfl
@[simp] theorem sinkAnswered_maxChunk (e : Emission) (s : State) : (sinkAnswered e s).maxChunk = s.maxChunk := by
  cases e <;> rfl
@[simp] theorem sinkAnswered_input (e : Emission) (s : State) : (sinkAnswered e s).input = s.input := by
  cases e <;> rfl
@[simp] theorem sinkAnswered_held (e : Emission) (s : State) : (sinkAnswered e s).held = s.held := by cases e <;> rfl
@[simp] theorem sinkAnswered_emitted (e : Emission) (s : State) : (sinkAnswered e s).emitted = s.emitted := by
  cases e <;> rfl

@[simp] theorem present_dec (ev : PortEvent) (s : State) : (present ev s).dec = s.dec := rfl
@[simp] theorem present_maxChunk (ev : PortEvent) (s : State) : (present ev s).maxChunk = s.maxChunk := rfl
@[simp] theorem present_input (ev : PortEvent) (s : State) : (present ev s).input = ev :: s.input := rfl
@[simp] theorem present_held (ev : PortEvent) (s : State) : (present ev s).held = none := rfl
@[simp] theorem present_emitted (ev : PortEvent) (s : State) : (present ev s).emitted = s.emitted := rfl

/-! ## The tests of the append look at `len` alone of the registers -/

@[simp] theorem overflowTest_clearEvents (d : FrameDecoder) (data : List Byte) :
    overflowTest (clearEvents d) data = overflowTest d data := rfl
@[simp] theorem appendBase_clearEvents (d : FrameDecoder) (data : List Byte) :
    appendBase (clearEvents d) data = appendBase d data := rfl

/-! ## Reset -/

@[simp] theorem resetWith_dec (m : Memory) (k : Nat) :
    (State.resetWith m k).dec = { buf := m, len := 0, frameCount := 0, evt := 0 } := rfl
@[simp] theorem resetWith_maxChunk (m : Memory) (k : Nat) : (State.resetWith m k).maxChunk = k := rfl
@[simp] theorem resetWith_held (m : Memory) (k : Nat) : (State.resetWith m k).held = none := rfl
@[simp] theorem resetWith_input (m : Memory) (k : Nat) : (State.resetWith m k).input = [] := rfl
@[simp] theorem resetWith_emitted (m : Memory) (k : Nat) : (State.resetWith m k).emitted = [] := rfl

end Sys2Proof.Machine
end

