-- ==== Sys2Proof/Laws/Flags.lean ====
section
/-! SUPPORT. The laws of the event vector: which bit `raise` sets, and that it sets no other. -/
namespace Sys2Proof.Machine

@[simp] theorem raised_zero (e : Event) : raised e 0 = false := by simp [raised]

theorem raised_raise (e f : Event) (evt : BitVec 16) :
    raised f (raise e evt) = (raised f evt || decide (f = e)) := by
  cases e <;> cases f <;> simp [raised, raise, Event.code]

theorem raised_raiseIf (c : Bool) (e f : Event) (evt : BitVec 16) :
    raised f (raiseIf c e evt) = (raised f evt || (c && decide (f = e))) := by
  cases c <;> simp [raiseIf, raised_raise]

/-- No event has the code of a reserved bit (10 R24). -/
theorem reserved_raise (e : Event) (evt : BitVec 16) {i : Nat} (hi : 13 ≤ i) :
    (raise e evt).getLsbD i = evt.getLsbD i := by
  have hc : e.code < 13 := by cases e <;> decide
  have : (1#16 <<< e.code).getLsbD i = false := by
    simp only [BitVec.getLsbD_shiftLeft, BitVec.getLsbD_one, Bool.and_eq_false_iff, decide_eq_false_iff_not]
    omega
  simp [raise, this]

theorem reserved_raiseIf (c : Bool) (e : Event) (evt : BitVec 16) {i : Nat} (hi : 13 ≤ i) :
    (raiseIf c e evt).getLsbD i = evt.getLsbD i := by
  cases c <;> simp [raiseIf, reserved_raise e evt hi]

end Sys2Proof.Machine
end

