-- ==== Sys2Proof/Laws/Memory.lean ====
section
/-! SUPPORT. The laws of `BUF`: what a read sees after a write, that a write keeps the canonical form, and that `slice`
is the list of its single reads. -/
namespace Sys2Proof.Machine

theorem read_append_of_not_mem {m m' : Memory} {a : Nat} (h : ∀ c ∈ m, c.1 ≠ a) :
    Memory.read (m ++ m') a = Memory.read m' a := by
  induction m with
  | nil => rfl
  | cons c m ih =>
    have hc : c.1 ≠ a := h c (by simp)
    simp only [List.cons_append, Memory.read, if_neg hc]
    exact ih fun d hd => h d (by simp [hd])

theorem read_of_not_mem {m : Memory} {a : Nat} (h : ∀ c ∈ m, c.1 ≠ a) : Memory.read m a = unlisted := by
  have := read_append_of_not_mem (m' := []) h
  simpa [Memory.read] using this

theorem read_append_of_not_mem_right {m m' : Memory} {a : Nat} (h : ∀ c ∈ m', c.1 ≠ a) :
    Memory.read (m ++ m') a = Memory.read m a := by
  induction m with
  | nil => simpa [Memory.read] using read_of_not_mem h
  | cons c m ih => simp [Memory.read, ih]

/-- Keeping every entry at `a` keeps what `a` reads as. -/
theorem read_filter {m : Memory} {p : Host.Cell → Bool} {a : Nat} (h : ∀ v, p (a, v) = true) :
    Memory.read (m.filter p) a = Memory.read m a := by
  induction m with
  | nil => rfl
  | cons c m ih =>
    obtain ⟨b, v⟩ := c
    by_cases hb : b = a
    · subst hb; simp [Memory.read, h]
    · by_cases hp : p (b, v) = true <;> simp [Memory.read, hp, hb, ih]

theorem cellsAt_nil (a : Nat) : cellsAt a [] = [] := rfl

theorem cellsAt_cons (a : Nat) (b : Byte) (data : List Byte) :
    cellsAt a (b :: data) = (if b = unlisted then [] else [(a, b)]) ++ cellsAt (a + 1) data := by
  by_cases h : b = unlisted <;> simp [cellsAt, List.zipIdx_cons, h]

theorem mem_cellsAt {a : Nat} {data : List Byte} {c : Host.Cell} (h : c ∈ cellsAt a data) :
    a ≤ c.1 ∧ c.1 < a + data.length ∧ c.2 ≠ unlisted := by
  induction data generalizing a with
  | nil => simp [cellsAt] at h
  | cons b data ih =>
    rw [cellsAt_cons] at h
    rcases List.mem_append.1 h with h | h
    · by_cases hb : b = unlisted
      · simp [hb] at h
      · simp only [hb, if_false, List.mem_singleton] at h
        subst h
        simp [hb]
    · have := ih h
      rw [List.length_cons]
      exact ⟨by omega, by omega, this.2.2⟩

theorem read_cellsAt (a : Nat) (data : List Byte) {k : Nat} (hk : k < data.length) :
    Memory.read (cellsAt a data) (a + k) = data[k] := by
  induction data generalizing a k with
  | nil => simp at hk
  | cons b data ih =>
    rw [cellsAt_cons]
    cases k with
    | zero =>
      by_cases hb : b = unlisted
      · have : ∀ c ∈ cellsAt (a + 1) data, c.1 ≠ a := fun c hc => by have := mem_cellsAt hc; omega
        simpa [hb] using read_of_not_mem this
      · simp [hb, Memory.read]
    | succ k =>
      rw [read_append_of_not_mem (by by_cases hb : b = unlisted <;> simp [hb])]
      have := ih (a + 1) (k := k) (by simpa using hk)
      rw [show a + (k + 1) = a + 1 + k by omega]
      simpa using this

theorem cellsAt_pairwise (a : Nat) (data : List Byte) : (cellsAt a data).Pairwise fun c d => c.1 < d.1 := by
  induction data generalizing a with
  | nil => simp [cellsAt_nil]
  | cons b data ih =>
    rw [cellsAt_cons]
    by_cases hb : b = unlisted
    · simpa [hb] using ih (a + 1)
    · simp only [hb, if_false, List.singleton_append, List.pairwise_cons]
      exact ⟨fun c hc => by have := mem_cellsAt hc; omega, ih (a + 1)⟩

/-- A read inside the written range gives the byte written (00 R12, 20 R65). -/
theorem read_write_inside (m : Memory) (a : Nat) (data : List Byte) {k : Nat} (hk : k < data.length) :
    (m.write a data).read (a + k) = data[k] := by
  have low : ∀ c ∈ m.filter (fun c => decide (c.1 < a)), c.1 ≠ a + k := fun c hc => by
    have := (List.mem_filter.1 hc).2
    simp only [decide_eq_true_eq] at this
    omega
  have high : ∀ c ∈ m.filter (fun c => decide (a + data.length ≤ c.1)), c.1 ≠ a + k := fun c hc => by
    have := (List.mem_filter.1 hc).2
    simp only [decide_eq_true_eq] at this
    omega
  rw [Memory.write, read_append_of_not_mem_right high, read_append_of_not_mem low, read_cellsAt a data hk]

/-- A write leaves every index outside its range alone. -/
theorem read_write_outside (m : Memory) (a : Nat) (data : List Byte) {b : Nat}
    (hb : b < a ∨ a + data.length ≤ b) : (m.write a data).read b = m.read b := by
  have mid : ∀ c ∈ cellsAt a data, c.1 ≠ b := fun c hc => by have := mem_cellsAt hc; omega
  rcases hb with hb | hb
  · have high : ∀ c ∈ m.filter (fun c => decide (a + data.length ≤ c.1)), c.1 ≠ b := fun c hc => by
      have := (List.mem_filter.1 hc).2
      simp only [decide_eq_true_eq] at this
      omega
    rw [Memory.write, read_append_of_not_mem_right high, read_append_of_not_mem_right mid,
      read_filter (by simpa using hb)]
  · have low : ∀ c ∈ m.filter (fun c => decide (c.1 < a)), c.1 ≠ b := fun c hc => by
      have := (List.mem_filter.1 hc).2
      simp only [decide_eq_true_eq] at this
      omega
    rw [Memory.write, List.append_assoc, read_append_of_not_mem low, read_append_of_not_mem mid,
      read_filter (by simpa using hb)]

/-- Every read after a write, in one equation. -/
theorem read_write (m : Memory) (a : Nat) (data : List Byte) (b : Nat) :
    (m.write a data).read b = if a ≤ b ∧ b < a + data.length then data.getD (b - a) 0x00#8 else m.read b := by
  split
  · next h =>
    obtain ⟨k, rfl⟩ : ∃ k, b = a + k := ⟨b - a, by omega⟩
    have hk : k < data.length := by omega
    rw [read_write_inside m a data hk]
    simp [hk]
  · next h => exact read_write_outside m a data (by omega)

/-- A write inside `BUF` keeps the canonical form. -/
theorem write_wf {m : Memory} {a : Nat} {data : List Byte} (hm : m.wf) (h : a + data.length ≤ Config.capacity) :
    (m.write a data).wf := by
  obtain ⟨hs, hv⟩ := hm
  constructor
  · rw [Memory.write, List.append_assoc, List.pairwise_append, List.pairwise_append]
    refine ⟨hs.sublist List.filter_sublist, ⟨cellsAt_pairwise a data, hs.sublist List.filter_sublist, ?_⟩, ?_⟩
    · intro c hc d hd
      have := mem_cellsAt hc
      have := (List.mem_filter.1 hd).2
      simp only [decide_eq_true_eq] at this
      omega
    · intro c hc d hd
      have hc := (List.mem_filter.1 hc).2
      simp only [decide_eq_true_eq] at hc
      rcases List.mem_append.1 hd with hd | hd
      · have := mem_cellsAt hd
        omega
      · have := (List.mem_filter.1 hd).2
        simp only [decide_eq_true_eq] at this
        omega
  · intro c hc
    rw [Memory.write, List.append_assoc] at hc
    rcases List.mem_append.1 hc with hc | hc
    · exact hv c (List.mem_filter.1 hc).1
    · rcases List.mem_append.1 hc with hc | hc
      · have := mem_cellsAt hc
        exact ⟨this.2.2, by omega⟩
      · exact hv c (List.mem_filter.1 hc).1

/-- The empty memory, `State.reset`'s `BUF`, is canonical. -/
theorem empty_wf : Memory.wf [] := by simp [Memory.wf]

/-- In a canonical memory no index from C on is listed. -/
theorem read_beyond {m : Memory} (hm : m.wf) {a : Nat} (ha : Config.capacity ≤ a) : m.read a = unlisted :=
  read_of_not_mem fun c hc => by have := (hm.2 c hc).2; omega

/-! ## `slice` -/

theorem sliceWalk_eq (m : Memory) (a n : Nat) (acc : List Byte) :
    sliceWalk m a n acc = acc.reverse ++ (List.range n).map fun k => m.read (a + k) := by
  induction n generalizing m a acc with
  | zero => cases m <;> simp [sliceWalk]
  | succ n ih =>
    have shift : ∀ m' : Memory, (List.range n).map (fun k => m'.read (a + 1 + k))
        = (List.range n).map (fun k => m'.read (a + (k + 1))) := fun m' =>
      List.map_congr_left fun k _ => by rw [show a + 1 + k = a + (k + 1) by omega]
    rw [List.range_succ_eq_map, List.map_cons, List.map_map]
    cases m with
    | nil =>
      rw [sliceWalk, ih, shift]
      simp [Memory.read, Function.comp_def]
    | cons c m =>
      obtain ⟨b, v⟩ := c
      rw [sliceWalk]
      split
      · next hb =>
        subst hb
        rw [ih, List.reverse_cons, List.append_assoc]
        congr 1
        simp only [Memory.read, Nat.add_zero, if_true, List.singleton_append, List.cons.injEq, true_and]
        refine List.map_congr_left fun k _ => ?_
        simp only [Function.comp, Nat.succ_eq_add_one]
        rw [if_neg (by omega), show b + 1 + k = b + (k + 1) by omega]
      · next hb =>
        rw [ih, shift, List.reverse_cons, List.append_assoc]
        simp [Memory.read, hb, Function.comp_def]

/-- `slice` is the list of its single reads (00 R12, 40 R101). -/
theorem slice_eq (m : Memory) (a n : Nat) : m.slice a n = (List.range n).map fun k => m.read (a + k) := by
  rw [Memory.slice, sliceWalk_eq]
  simp only [List.reverse_nil, List.nil_append]
  refine List.map_congr_left fun k hk => read_filter fun v => ?_
  have := List.mem_range.1 hk
  simp only [Bool.and_eq_true, decide_eq_true_eq]
  omega

@[simp] theorem slice_length (m : Memory) (a n : Nat) : (m.slice a n).length = n := by simp [slice_eq]

theorem slice_getElem (m : Memory) (a n : Nat) {k : Nat} (hk : k < (m.slice a n).length) :
    (m.slice a n)[k] = m.read (a + k) := by simp [slice_eq]

end Sys2Proof.Machine
end

