-- ==== Sys2Proof/Laws/Frames.lean ====
section
/-! SUPPORT. The reads behind the two frames: a sample's two bytes are the two bytes it was read from (20 R54), every
sample passes the bounds check (42 R143), and the JPEG slice byte by byte (43 R162). -/
namespace Sys2Proof.Machine

theorem le16_toNat (m : Memory) (a : Nat) :
    (le16 m a).toNat = (m.read a).toNat + 256 * (m.read (a + 1)).toNat := by
  have h0 := (m.read a).isLt
  have h1 := (m.read (a + 1)).isLt
  simp only [le16, BitVec.toNat_add, BitVec.toNat_mul, BitVec.toNat_setWidth, BitVec.toNat_ofNat]
  omega

/-- A sample's bytes on the port are the bytes of `BUF` it was read from, in their order (20 R54). -/
theorem sampleBytes_le16 (m : Memory) (a : Nat) : sampleBytes (le16 m a) = [m.read a, m.read (a + 1)] := by
  have h0 := (m.read a).isLt
  have h1 := (m.read (a + 1)).isLt
  simp only [sampleBytes, List.cons.injEq, and_true]
  constructor <;> apply BitVec.eq_of_toNat_eq <;> rw [BitVec.extractLsb'_toNat, le16_toNat]
  · simp only [Nat.shiftRight_zero]; omega
  · rw [Nat.shiftRight_eq_div_pow]; omega

theorem thermalAddr_eq (x y : Nat) : thermalAddr x y = 60 + 164 * y + 2 * x := by
  simp only [thermalAddr, thermalOffset, Config.hdr, Config.strideWords, Config.lineOffset]
  omega

/-- The bounds check passes at every sample of the grid (42 R143). -/
theorem sample_in_bounds {x y : Nat} (hx : x < 80) (hy : y < 60) : sampleInBounds x y = true := by
  rw [sampleInBounds, decide_eq_true_eq, thermalAddr_eq]
  simp only [Config.capacity]
  omega

/-- No sample is ever skipped (42 R143, R144). -/
theorem thermalSkips_eq : thermalSkips = false := by
  rw [thermalSkips, List.any_eq_false]
  intro y hy
  rw [Bool.not_eq_true, List.any_eq_false]
  intro x hx
  simp [sample_in_bounds (List.mem_range.1 hx) (List.mem_range.1 hy)]

theorem jpegSlice_length (m : Memory) (base n : Nat) : (jpegSlice m base n).length = n := by
  simp only [jpegSlice, List.length_append, slice_length, List.length_replicate]
  omega

/-- The slice byte by byte (43 R162; D15). -/
theorem jpegSlice_getElem (m : Memory) (base n : Nat) {i : Nat} (hi : i < (jpegSlice m base n).length) :
    (jpegSlice m base n)[i] = if base + i < Config.capacity then m.read (base + i) else 0x00#8 := by
  have hn : i < n := by rwa [jpegSlice_length] at hi
  simp only [jpegSlice, List.getElem_append, slice_length]
  split
  · next h =>
    rw [slice_getElem, if_pos (by omega)]
  · next h =>
    rw [List.getElem_replicate, if_neg (by omega)]

/-- BOUNDS_SKIP of the visible extractor is raised exactly where some slice index is ≥ C (43 R162). -/
theorem visibleSkips_iff (base n : Nat) :
    visibleSkips base n = true ↔ ∃ i, i < n ∧ Config.capacity ≤ base + i := by
  rw [visibleSkips, decide_eq_true_eq]
  constructor
  · rintro ⟨h0, h⟩
    exact ⟨n - 1, by omega, by omega⟩
  · rintro ⟨i, h1, h2⟩
    omega

/-- LE32 is a 32-bit value (30 R77). -/
theorem le32_lt (m : Memory) (a : Nat) : le32 m a < 2 ^ 32 := by
  have h0 := (m.read a).isLt
  have h1 := (m.read (a + 1)).isLt
  have h2 := (m.read (a + 2)).isLt
  have h3 := (m.read (a + 3)).isLt
  simp only [le32]
  omega

end Sys2Proof.Machine
end

