-- ==== Sys2Proof/Laws/Chunk.lean ====
section
/-! SUPPORT. The append (40 R105) and the CHUNK rule (44 R187) as their cases, each said once. -/
namespace Sys2Proof.Machine

open Sys2Proof.Safety

theorem marker_length : Config.marker.length = 4 := rfl

/-- The front test is 10 R31 point 2. -/
theorem frontTest_iff (d : FrameDecoder) : frontTest d = true ↔ MarkerAtFront d := by
  rw [frontTest, beq_iff_eq, slice_eq, marker_length]
  constructor
  · intro h i hi
    have h1 := congrArg (fun l => l.getD i 0x00#8) h
    have h4 : i < 4 := by omega
    have hl : i < d.len.toNat := by omega
    simpa [List.getD_eq_getElem?_getD, hl, h4, List.getElem?_take] using h1
  · intro h
    apply List.ext_getElem
    · simp
    · intro i h1 h2
      have hi : i < min d.len.toNat 4 := by simpa using h1
      have h4 : i < Config.marker.length := by rw [marker_length]; omega
      have := h i hi
      rw [List.getD_eq_getElem?_getD, List.getElem?_eq_getElem h4, Option.getD_some] at this
      simp only [List.getElem_map, List.getElem_range, Nat.zero_add, List.getElem_take]
      exact this

/-- The copy never goes past the buffer's end (40 R105 corner 1). -/
theorem appendBase_fits (d : FrameDecoder) {data : List Byte} (h : data.length ≤ Config.capacity) :
    appendBase d data + data.length ≤ Config.capacity := by
  unfold appendBase
  split
  · omega
  · next hn =>
    simp only [overflowTest, Bool.or_eq_true, decide_eq_true_eq, not_or] at hn
    omega

/-- The cursor after the copy, exact (40 R105; D11). -/
theorem copyChunk_len_toNat (d : FrameDecoder) {data : List Byte} (h : data.length ≤ Config.capacity) :
    (copyChunk data d).len.toNat = appendBase d data + data.length := by
  have := appendBase_fits d h
  simp only [Config.capacity] at this
  rw [copyChunk_len, BitVec.toNat_ofNat]
  exact Nat.mod_eq_of_lt (by omega)

theorem tryParse_eq (d : FrameDecoder) :
    tryParse d = if d.len.toNat < 28 then none else some (readHeader d.buf) := rfl

/-- The CHUNK rule as its four ends (44 R187, R191): RESYNC, no header yet, frame incomplete, frame complete. -/
theorem chunkResult_eq (data : List Byte) (d : FrameDecoder) :
    chunkResult data d =
      let c := copyChunk data (clearEvents d)
      if frontTest c = false then (resetCursor (raiseEvent .resync c), [])
      else if c.len.toNat < 28 then (raiseEvent .waitHeader c, [])
      else if isComplete (readHeader c.buf).frameSize c.len.toNat then
        (completeFrame (readHeader c.buf) c, completionFrames (readHeader c.buf) c.buf)
      else (raiseEvent .waitFrame c, []) := by
  simp only [chunkResult, appendChunk, tryParse_eq]
  generalize copyChunk data (clearEvents d) = c
  by_cases hf : frontTest c = true
  · by_cases hl : c.len.toNat < 28 <;> simp [hf, hl]
  · simp [hf]

/-- The front test after the copy, on the bytes the copy leaves (40 R104, R105). -/
theorem frontTest_copyChunk (d : FrameDecoder) {data : List Byte} (h : data.length ≤ Config.capacity) :
    frontTest (copyChunk data (clearEvents d)) = true ↔
      ∀ i, i < min (appendBase d data + data.length) 4 →
        (d.buf.write (appendBase d data) data).read i = [0xEF#8, 0xBE#8, 0x00#8, 0x00#8].getD i 0#8 := by
  rw [frontTest_iff, MarkerAtFront, copyChunk_len_toNat _ h]
  rfl

/-- The events of a completion, raised one by one, are the bits of their table (44 R188, 60 R210). -/
theorem completionEvents_eq (data : List Byte) (d : FrameDecoder) (b : Memory) :
    completionEvents (readHeader b) b (copyChunk data (clearEvents d)).evt = completedEvents data d b := by
  have ht : (readHeader b).thermalSize = le32 b 12 := rfl
  have hj : (readHeader b).jpgSize = le32 b 16 := rfl
  simp only [completionEvents, completedEvents, ht, hj, copyChunk_evt, thermalSkips_eq, Bool.and_false, visibleSkips,
    visibleBase, overflowTest_clearEvents, clearEvents_evt, Config.hdr]
  generalize soiMissing _ = w
  by_cases h1 : 0 < le32 b 12 <;> by_cases h2 : 0 < le32 b 16
    <;> by_cases h3 : 1048576 < 28 + le32 b 12 + le32 b 16
    <;> cases markerTest data <;> cases overflowTest d data <;> cases w
    <;> simp [h1, h2, h3, raiseIf, raise, Event.code]

/-- A CHUNK whose copy passes the front test and holds a complete frame leaves the state and emits the frames of
44 R188. -/
theorem chunkResult_complete {data : List Byte} {d : FrameDecoder} (hlen : data.length ≤ Config.capacity)
    (hfront : ∀ i, i < min (appendBase d data + data.length) 4 →
      (d.buf.write (appendBase d data) data).read i = [0xEF#8, 0xBE#8, 0x00#8, 0x00#8].getD i 0#8)
    (hhdr : 28 ≤ appendBase d data + data.length)
    (hcomp : le32 (d.buf.write (appendBase d data) data) 8 + 28 ≤ appendBase d data + data.length) :
    chunkResult data d =
      let b := d.buf.write (appendBase d data) data
      (completedDecoder data d b, thermalPart b ++ visiblePart b) := by
  have hl := copyChunk_len_toNat (clearEvents d) hlen
  rw [appendBase_clearEvents] at hl
  have hc : isComplete (readHeader (copyChunk data (clearEvents d)).buf).frameSize
      (appendBase d data + data.length) = true := decide_eq_true hcomp
  rw [chunkResult_eq]
  simp only [(frontTest_copyChunk d hlen).2 hfront, hl, hc, if_neg (Nat.not_lt.2 hhdr), Bool.true_eq_false, if_false,
    if_true]
  refine Prod.ext ?_ rfl
  rw [completedDecoder, ← completionEvents_eq]
  rfl

/-- CHUNK within its range, in a machine whose MAX_CHUNK is within its own (00 R8), answers a next state. -/
theorem execChunk_eq {data : List Byte} {s : State} (hpos : 1 ≤ data.length) (hmax : data.length ≤ s.maxChunk)
    (hcap : s.maxChunk ≤ Config.capacity) :
    execChunk data s = .next (settle (chunkResult data s.dec).1 (chunkResult data s.dec).2 s) := by
  have := appendBase_fits s.dec (data := data) (by omega)
  rw [execChunk, if_neg (by omega), if_neg (by omega)]

/-- If CHUNK answers a next state, its operand was within its range and the copy inside `BUF`. -/
theorem execChunk_next {data : List Byte} {s t : State} (h : execChunk data s = .next t) :
    1 ≤ data.length ∧ data.length ≤ s.maxChunk ∧ appendBase s.dec data + data.length ≤ Config.capacity
      ∧ t = settle (chunkResult data s.dec).1 (chunkResult data s.dec).2 s := by
  unfold execChunk at h
  split at h
  · cases h
  · split at h
    · cases h
    · cases h
      exact ⟨by omega, by omega, by omega, rfl⟩

end Sys2Proof.Machine
end

