-- ==== Sys2Proof/Laws/Decode.lean ====
section
/-! SUPPORT. The fields of a descriptor built from fields, and a descriptor built from its own fields (30 R71). -/
namespace Sys2Proof

@[simp] theorem descErr_makeDesc (e : BitVec 1) (r : BitVec 10) (l : BitVec 21) :
    descErr (makeDesc e r l) = e.getLsbD 0 := by
  simp only [descErr, makeDesc, BitVec.getLsbD_append]
  simp

@[simp] theorem descRsvd_makeDesc (e : BitVec 1) (r : BitVec 10) (l : BitVec 21) :
    descRsvd (makeDesc e r l) = r := by
  ext i hi
  simp only [descRsvd, makeDesc, BitVec.getElem_extractLsb', BitVec.getLsbD_append]
  have h1 : ¬ 21 + i < 21 := by omega
  simp [h1, hi]

@[simp] theorem descLen_makeDesc (e : BitVec 1) (r : BitVec 10) (l : BitVec 21) :
    descLen (makeDesc e r l) = l := by
  ext i hi
  simp only [descLen, makeDesc, BitVec.getElem_extractLsb', BitVec.getLsbD_append]
  simp [hi]

/-- A descriptor is the word of its three fields. -/
theorem makeDesc_fields (w : Word) : makeDesc (BitVec.ofBool (descErr w)) (descRsvd w) (descLen w) = w := by
  apply BitVec.eq_of_getLsbD_eq
  intro i hi
  simp only [makeDesc, BitVec.getLsbD_append, descRsvd, descLen, descErr, BitVec.getLsbD_extractLsb',
    BitVec.getLsbD_ofBool]
  by_cases h21 : i < 21
  · simp [h21]
  · by_cases h31 : i - 21 < 10
    · simp [h21, h31, show 21 + (i - 21) = i by omega]
    · obtain rfl : i = 31 := by omega
      simp

/-! ## Well-formedness, and the decoder row by row (30 R72) -/

theorem wellFormed_illegal {mc : Nat} {r : BitVec 10} {l : BitVec 21} :
    WellFormed mc (.illegal r l) ↔ r ≠ 0 ∨ mc < l.toNat := by
  show (if r ≠ 0 ∨ mc < l.toNat then none else some IllFormed.legalFields) = none ↔ _
  by_cases h : r ≠ 0 ∨ mc < l.toNat
  · rw [if_pos h]; exact iff_of_true rfl h
  · rw [if_neg h]; exact iff_of_false (Option.some_ne_none _) h

theorem wellFormed_chunk {mc : Nat} {data : List Byte} :
    WellFormed mc (.chunk data) ↔ 1 ≤ data.length ∧ data.length ≤ mc := by
  cases data with
  | nil => simp [WellFormed, illFormed]
  | cons b data => simp [WellFormed, illFormed]

/-- Order 2 of 30 R72. -/
theorem decode_illegal {mc : Nat} {desc : Word} {data : List Byte} (he : descErr desc = false)
    (h : descRsvd desc ≠ 0 ∨ mc < (descLen desc).toNat) :
    decode mc (.transfer desc data) = .ok (.illegal (descRsvd desc) (descLen desc)) := by
  rw [decode, he, if_neg Bool.false_ne_true, if_pos h]

/-- Order 4 of 30 R72. -/
theorem decode_chunk {mc : Nat} {desc : Word} {data : List Byte} (he : descErr desc = false)
    (hr : descRsvd desc = 0) (hl : data.length = (descLen desc).toNat) (hpos : 1 ≤ data.length)
    (hle : data.length ≤ mc) : decode mc (.transfer desc data) = .ok (.chunk data) := by
  have hz : descLen desc ≠ 0 := fun h => by rw [h] at hl; simp at hl; simp [hl] at hpos
  rw [decode, he, if_neg Bool.false_ne_true, if_neg (by rintro (h | h); exacts [h hr, by omega]),
    if_neg (by omega), if_neg hz]

/-- The cursor's 21 bits hold every legal chunk length (00 R9). -/
theorem ofNat21_toNat {n : Nat} (h : n ≤ Config.capacity) : (BitVec.ofNat 21 n).toNat = n := by
  simp only [Config.capacity] at h
  rw [BitVec.toNat_ofNat]
  exact Nat.mod_eq_of_lt (by omega)

end Sys2Proof
end

