-- ==== Sys2Proof/Laws/Emission.lean ====
section
/-! SUPPORT. What the hand-over of frames can do (44 R192): one lemma for `deliver`, one for `settle`, and the cases in
which every sink accepts or the first one asked does not. -/
namespace Sys2Proof.Machine

open Sys2Proof.Safety

/-- `deliver` emits the accepted frames, which come first, and leaves the rest; of the machine it touches only the
handshakes and the output history. It stops early only where the sink of the next frame did not accept. -/
theorem deliver_spec (frames : List Emission) (s : State) :
    ∃ done, frames = done ++ (deliver frames s).2 ∧ (deliver frames s).1.emitted = s.emitted ++ done
      ∧ (deliver frames s).1.dec = s.dec ∧ (deliver frames s).1.maxChunk = s.maxChunk
      ∧ (deliver frames s).1.input = s.input ∧ (deliver frames s).1.held = s.held := by
  induction frames generalizing s with
  | nil => exact ⟨[], by simp [deliver]⟩
  | cons e rest ih =>
    by_cases h : sinkAccepts e s = true
    · obtain ⟨done, h1, h2, h3⟩ := ih { sinkAnswered e s with emitted := s.emitted ++ [e] }
      refine ⟨e :: done, ?_, ?_, ?_⟩
      · simpa [deliver, h] using h1
      · simpa [deliver, h] using h2
      · simpa [deliver, h] using h3
    · exact ⟨[], by simp [deliver, h]⟩

/-- Everything `settle` can do: the transaction ends with all frames emitted, or it is held with the frames that are
still to be accepted and the core's state as it was. -/
theorem settle_cases (after : FrameDecoder) (frames : List Emission) (s : State) :
    ∃ done rest, frames = done ++ rest ∧ (settle after frames s).emitted = s.emitted ++ done
      ∧ (settle after frames s).maxChunk = s.maxChunk ∧ (settle after frames s).input = s.input
      ∧ ((rest = [] ∧ (settle after frames s).dec = after ∧ (settle after frames s).held = none)
        ∨ (rest ≠ [] ∧ (settle after frames s).dec = s.dec
            ∧ (settle after frames s).held = some { after := after, pending := rest })) := by
  obtain ⟨done, h1, h2, h3, h4, h5, _⟩ := deliver_spec frames s
  refine ⟨done, (deliver frames s).2, h1, ?_⟩
  unfold settle
  rcases hd : deliver frames s with ⟨s', rest⟩
  rw [hd] at h2 h3 h4 h5
  cases rest with
  | nil => exact ⟨h2, h4, h5, .inl ⟨rfl, rfl, rfl⟩⟩
  | cons e rest => exact ⟨h2, h4, h5, .inr ⟨List.cons_ne_nil _ _, h3, rfl⟩⟩

/-- A transaction without emissions ends at once. -/
theorem settle_nil (after : FrameDecoder) (s : State) :
    settle after [] s = { s with dec := after, held := none } := rfl

/-- A first frame that its sink accepts is emitted, and the transaction goes on with the others. -/
theorem settle_accepted (after : FrameDecoder) (e : Emission) (rest : List Emission) {s : State}
    (h : sinkAccepts e s = true) :
    settle after (e :: rest) s
      = settle after rest { sinkAnswered e s with emitted := s.emitted ++ [e] } := by
  simp [settle, deliver, h]

/-- A first frame that its sink does not accept holds the transaction with nothing emitted. -/
theorem settle_refused (after : FrameDecoder) (e : Emission) (rest : List Emission) {s : State}
    (h : sinkAccepts e s = false) :
    settle after (e :: rest) s
      = { sinkAnswered e s with held := some { after := after, pending := e :: rest } } := by
  simp [settle, deliver, h]

/-- What a machine held before does not enter: `settle` says anew what it holds. -/
theorem settle_held (after : FrameDecoder) (frames : List Emission) (k : Option Held) (s : State) :
    settle after frames { s with held := k } = settle after frames s := by
  induction frames generalizing s with
  | nil => rfl
  | cons e rest ih =>
    cases h : sinkAccepts e s with
    | true =>
      rw [settle_accepted _ _ _ h, settle_accepted _ _ _ (s := { s with held := k }) (by cases e <;> exact h),
        ← ih { sinkAnswered e s with emitted := s.emitted ++ [e] }]
      cases e <;> rfl
    | false =>
      rw [settle_refused _ _ _ h, settle_refused _ _ _ (s := { s with held := k }) (by cases e <;> exact h)]
      cases e <;> rfl

theorem deliver_ready (frames : List Emission) {s : State} (h : SinksReady s) :
    deliver frames s = ({ s with emitted := s.emitted ++ frames }, []) := by
  induction frames generalizing s with
  | nil => simp [deliver]
  | cons e rest ih =>
    obtain ⟨ht, hv⟩ := h
    have ha : sinkAccepts e s = true := by cases e <;> simp [sinkAccepts, Sink.accepts, ht, hv, Sink.accepting]
    have hs : sinkAnswered e s = s := by
      cases s; cases e <;> simp_all [sinkAnswered, Sink.answered, Sink.accepting]
    rw [deliver, if_pos ha, ih (by rw [hs]; exact ⟨ht, hv⟩), hs]
    simp

/-- With both sinks accepting, the transaction ends with every frame emitted. -/
theorem settle_ready (after : FrameDecoder) (frames : List Emission) {s : State} (h : SinksReady s) :
    settle after frames s = { s with dec := after, held := none, emitted := s.emitted ++ frames } := by
  rw [settle, deliver_ready frames h]

end Sys2Proof.Machine
end

