-- ==== Sys2Proof/Laws/PerInstr.lean ====
section
/-! SUPPORT. The statement made per constructor of `Instr`: the encoded form of a well-formed instruction decodes to an
instruction of the same opcode-table row (30 R72, R85). -/
namespace Sys2Proof.Laws.SameRow

/-- The event `encode i` decodes, and to an instruction of the same mnemonic. -/
def Statement (i : Instr) : Prop :=
  ∀ maxChunk, maxChunk ≤ Config.capacity → WellFormed maxChunk i →
    ∃ j, decode maxChunk (encode i) = .ok j ∧ mnemonic j = mnemonic i

theorem chunkErr (rsvd : BitVec 10) (len : BitVec 21) : Statement (.chunkErr rsvd len) := by
  intro mc _ _
  exact ⟨.chunkErr rsvd len, by simp [decode, encode], rfl⟩

theorem illegal (rsvd : BitVec 10) (len : BitVec 21) : Statement (.illegal rsvd len) := by
  intro mc _ hwf
  exact ⟨_, decode_illegal (by simp) (by simpa using wellFormed_illegal.1 hwf), rfl⟩

theorem chunkEmpty : Statement .chunkEmpty := by
  intro mc _ _
  exact ⟨.chunkEmpty, by simp [decode, encode], rfl⟩

theorem chunk (data : List Byte) : Statement (.chunk data) := by
  intro mc hmc hwf
  obtain ⟨hpos, hle⟩ := wellFormed_chunk.1 hwf
  exact ⟨_, decode_chunk (by simp) (by simp) (by rw [descLen_makeDesc, ofNat21_toNat (by omega)]) hpos hle, rfl⟩

theorem rst : Statement .rst := by
  intro mc _ _
  exact ⟨.rst, rfl, rfl⟩

end Sys2Proof.Laws.SameRow
end

