-- ==== Sys2Proof/Laws/Step.lean ====
section
/-! SUPPORT. Everything a step can do, said once. -/
namespace Sys2Proof.Machine

/-- A step that answers a next state resumed a held transaction, found the input port empty, or took the transaction at
its head and ran it. -/
theorem step_cases {s t : State} (h : step s = .next t) :
    (∃ k, s.held = some k ∧ t = settle k.after k.pending s)
      ∨ (s.held = none ∧ s.input = [] ∧ t = s)
      ∨ (∃ ev rest i, s.held = none ∧ s.input = ev :: rest ∧ decode s.maxChunk ev = .ok i
          ∧ exec i { s with input := rest } = .next t) := by
  unfold step at h
  split at h
  · next k hk =>
    cases h
    exact .inl ⟨k, hk, rfl⟩
  · next hk =>
    cases hin : s.input with
    | nil =>
      simp only [fetch, hin] at h
      cases h
      exact .inr (.inl ⟨hk, rfl, rfl⟩)
    | cons ev rest =>
      simp only [fetch, hin] at h
      cases hd : decode s.maxChunk ev with
      | error why => rw [hd] at h; cases h
      | ok i =>
        rw [hd] at h
        exact .inr (.inr ⟨ev, rest, i, hk, rfl, hd, h⟩)

end Sys2Proof.Machine
end

