-- ==== Sys2Proof/Tests/Slice0.lean ====
section
/-! SUPPORT. The package's own tests. Expected values are those of 95_test_vectors.md and of the tables of the family
files, or worked by hand from the rules; each comment names its source. Then one witness for each statement's
hypotheses. -/
namespace Sys2Proof.Tests

open Sys2Proof.Machine Sys2Proof.Safety

/-! ## Small states -/

/-- A core that has accumulated `data`, both sinks accepting. -/
def heldBytes (data : List Byte) : State :=
  { State.reset with dec := { buf := cellsAt 0 data, len := BitVec.ofNat 21 data.length, frameCount := 0, evt := 0 } }

/-- `F36` of 95 §3. -/
def f36 : List Byte :=
  headerBytes 8 4 4 ++ [0x34#8, 0x12#8, 0x78#8, 0x56#8, 0xFF#8, 0xD8#8, 0xFF#8, 0xD9#8]

/-- The outcome's state, if it is a next state. -/
def nextOf (o : Host.Outcome State Fault Refusal) : Option State :=
  match o with
  | .next t => some t
  | .fault _ => none
  | .refused _ => none

/-- EVT and `len` after a transaction. -/
def evtLen (o : Host.Outcome State Fault Refusal) : Option (BitVec 16 × BitVec 21) :=
  (nextOf o).map fun t => (t.dec.evt, t.dec.len)

/-! ## Well-formedness: one ill-formed term for each check -/

theorem test_illFormed_legalFields : illFormed 4096 (.illegal 0 4096) = some .legalFields := by decide
theorem test_illFormed_emptyChunk : illFormed 4096 (.chunk []) = some .emptyChunk := by decide
theorem test_illFormed_chunkTooLong : illFormed 3 (.chunk [1, 2, 3, 4]) = some .chunkTooLong := by decide
theorem test_wellFormed : WellFormed 3 (.chunk [1, 2, 3]) ∧ WellFormed 3 (.illegal 0 4) ∧ WellFormed 3 .rst := by decide

/-! ## Decoding: words written out from 30 R71 (95 §2.1) -/

theorem test_decode_chunkErr :
    decode 1048576 (.transfer 0b10000000000000000000000000000111#32 [1, 2]) = .ok (.chunkErr 0 7) := by decide
theorem test_decode_err_wins :
    decode 1048576 (.transfer 0xFFFFFFFF#32 []) = .ok (.chunkErr 0x3FF 0x1FFFFF) := by decide
theorem test_decode_illegal_length :
    decode 1048576 (.transfer 0b00000000000100000000000000000001#32 []) = .ok (.illegal 0 0x100001) := by decide
theorem test_decode_illegal_rsvd :
    decode 1048576 (.transfer 0b01111111111000000000001111111111#32 [9]) = .ok (.illegal 0x3FF 0x3FF) := by decide
theorem test_decode_chunkEmpty : decode 1048576 (.transfer 0x00000000#32 []) = .ok .chunkEmpty := by decide
theorem test_decode_chunk :
    decode 1048576 (.transfer 0b00000000000000000000000000000010#32 [0xEF, 0xBE]) = .ok (.chunk [0xEF, 0xBE]) := by
  decide
theorem test_decode_maxChunk_parameter :
    decode 4096 (.transfer 0x00001001#32 []) = .ok (.illegal 0 4097) := by decide
theorem test_decode_short_data :
    decode 1048576 (.transfer 0x00000003#32 [1, 2]) = .error .dataPhaseLength := by decide
theorem test_decode_rst : decode 1048576 .rst = .ok .rst := by decide
theorem test_decodeTableWord :
    decodeTableWord 32 0x80000000 = some (.chunkErr 0 0) ∧ decodeTableWord 32 0 = some .chunkEmpty
      ∧ decodeTableWord 32 0x00200000 = some (.illegal 1 0) ∧ decodeTableWord 32 3 = some (.chunk [0, 0, 0])
      ∧ decodeTableWord 0 0 = some .rst := by decide
/-- 95 §3, P2: the descriptor of a 5-byte chunk. -/
theorem test_encode_chunk : encode (.chunk [0x12, 0x34, 0x56, 0x78, 0x9A])
    = .transfer 0x00000005#32 [0x12, 0x34, 0x56, 0x78, 0x9A] := by decide

/-! ## The transactions -/

/-- 44 R184: `len = 3`, CHUNK_ERR 7 gives `len = 3`, EVT 0x0001. -/
theorem test_chunkErr : evtLen (exec (.chunkErr 0 7) (heldBytes [0xEF, 0xBE, 0x00])) = some (0x0001, 3) := by decide
/-- 44 R185. -/
theorem test_illegal : evtLen (exec (.illegal 0 0x100001) (heldBytes [0xEF, 0xBE, 0x00])) = some (0x0004, 3) := by
  decide
/-- 44 R186. -/
theorem test_chunkEmpty : evtLen (exec .chunkEmpty (heldBytes [0xEF, 0xBE, 0x00])) = some (0x0002, 3) := by decide
/-- 44 R190: `len = 3`, `frame_count = 5` gives 0 and 0, `BUF` unchanged. -/
theorem test_rst :
    (nextOf (exec .rst { heldBytes [0xEF, 0xBE, 0x00] with
        dec := { buf := [(0, 0xEF)], len := 3, frameCount := 5, evt := 8 } })).map (·.dec)
      = some { buf := [(0, 0xEF)], len := 0, frameCount := 0, evt := 0 } := by decide

/-- 40 R110 row 1, 95 §2.4: noise resyncs. -/
theorem test_chunk_noise : evtLen (exec (.chunk [0x12, 0x34, 0x56, 0x78, 0x9A]) State.reset) = some (0x0020, 0) := by
  decide
/-- 95 §2.4: `EF BE` then `EF BE`. -/
theorem test_chunk_short_marker : evtLen (exec (.chunk [0xEF, 0xBE]) (heldBytes [0xEF, 0xBE])) = some (0x0020, 0) := by
  decide
/-- 40 R110 row 3: `EF BE 00` then `00`. -/
theorem test_chunk_fourth_byte : evtLen (exec (.chunk [0x00]) (heldBytes [0xEF, 0xBE, 0x00])) = some (0x0040, 4) := by
  decide
/-- 95 §2.2: `HDR 0 0 0` completes with EVT 0x0108, and the counter wraps. -/
theorem test_chunk_empty_frame :
    (nextOf (exec (.chunk (headerBytes 0 0 0)) { State.reset with
        dec := { buf := [], len := 0, frameCount := 0xFFFFFFFF, evt := 0 } })).map
      (fun t => (t.dec.evt, t.dec.len, t.dec.frameCount, t.emitted)) = some (0x0108, 0, 0, []) := by decide
/-- 95 §2.2: no 32-bit wrap in `FS + 28`. -/
theorem test_chunk_no_wrap :
    evtLen (exec (.chunk (headerBytes 0xFFFFFFE5 0 0 ++ fillBytes 8 0)) State.reset) = some (0x0088, 36) := by decide
/-- 95 §3, P4: a marker at a chunk's start resets a partial frame. -/
theorem test_chunk_marker_resets :
    evtLen (exec (.chunk [0xEF, 0xBE, 0, 0, 0, 0, 0, 0]) (heldBytes (headerBytes 16 8 8))) = some (0x0048, 8) := by
  decide
/-- 95 §2.2, with MAX_CHUNK bytes standing in: an overflow at `len + L = C` and no marker ends EMPTY, EVT 0x0030. -/
theorem test_chunk_overflow :
    evtLen (exec (.chunk [1, 2, 3, 4]) { State.reset with
        dec := { buf := cellsAt 0 (headerBytes 0xFFFFFF00 0 0), len := 1048572, frameCount := 0, evt := 0 } })
      = some (0x0030, 0) := by decide
/-- 43 R169 row 1 (95 §2.5): TS = 0, JS = 1 gives EVT 0x0D08, 129 bytes `FF 00 …`, warning. -/
theorem test_chunk_one_byte_jpeg :
    (nextOf (exec (.chunk (headerBytes 4 0 1 ++ [0xFF, 0xD8, 0x11, 0x22])) State.reset)).map
      (fun t => (t.dec.evt, t.emitted)) = some (0x0D08, [.visible (0xFF :: List.replicate 128 0) true]) := by decide
/-- 43 R169 row 2: JS = 2 gives EVT 0x0508, `FF D8 00 …`, no warning. -/
theorem test_chunk_two_byte_jpeg :
    (nextOf (exec (.chunk (headerBytes 4 0 2 ++ [0xFF, 0xD8, 0x11, 0x22])) State.reset)).map
      (fun t => (t.dec.evt, t.emitted)) = some (0x0508, [.visible (0xFF :: 0xD8 :: List.replicate 128 0) false]) := by
  decide
/-- 43 R168 point 1, 43 R169 row 3: a slice past the capacity reads 0 and is skipped. -/
theorem test_visible_beyond_capacity :
    jpegSlice (cellsAt 0 f36) (visibleBase 1048576) 3 = [0, 0, 0] ∧ visibleSkips (visibleBase 1048576) 3 = true
      ∧ soiMissing (jpegSlice (cellsAt 0 f36) (visibleBase 1048576) 3) = true := by decide

/-! ## The extractors' addresses and reads -/

/-- 42 R150, the corners of the address function. -/
theorem test_thermal_addresses :
    [thermalAddr 0 0, thermalAddr 1 0, thermalAddr 79 0, thermalAddr 0 1, thermalAddr 79 1, thermalAddr 0 59,
      thermalAddr 79 59] = [60, 62, 218, 224, 382, 9736, 9894] := by decide
/-- 42 R142: `BUF[60] = 0x30`, `BUF[61] = 0x31` gives 0x3130, low byte first on the port. -/
theorem test_thermal_sample :
    thermalSample [(60, 0x30), (61, 0x31)] 0 0 = 0x3130 ∧ sampleBytes 0x3130 = [0x30, 0x31] := by decide
/-- 41 R129: the header of the concrete scenario, and the gate at 99 and 100. -/
theorem test_header_gate :
    readHeader (cellsAt 0 (headerBytes 72 60 10)) = { frameSize := 72, thermalSize := 60, jpgSize := 10 }
      ∧ isComplete 72 99 = false ∧ isComplete 72 100 = true := by decide
/-- 95 E2: the header's bytes. -/
theorem test_header_bytes :
    headerBytes 72 60 10 = [0xEF, 0xBE, 0, 0, 0, 0, 0, 0, 0x48, 0, 0, 0, 0x3C, 0, 0, 0, 0x0A, 0, 0, 0, 0, 0, 0, 0,
      0, 0, 0, 0] := by decide
/-- A write of the byte an unlisted index reads as removes the entry. -/
theorem test_write_canonical : Memory.write [(0, 0xEF), (1, 0xBE), (9, 7)] 1 [0, 5] = [(0, 0xEF), (2, 5), (9, 7)] := by
  decide
/-- 95 §2.7: the status port. -/
theorem test_status_port :
    statusRead 0 (heldBytes [0xEF, 0xBE, 0x00]) = 1 ∧ statusRead 1 (heldBytes [0xEF, 0xBE, 0x00]) = 3
      ∧ statusRead 0 (heldBytes (headerBytes 72 60 10)) = 2 ∧ statusRead 0 State.reset = 0 := by decide

/-! ## The step, and the hold -/

/-- 44 R181: RST taken off the port. -/
theorem test_step_takes_rst :
    (nextOf (step { heldBytes [0xEF, 0xBE] with input := [.rst, chunkOf [0]] })).map (fun t => (t.dec.len, t.input))
      = some (0, [chunkOf [0]]) := by decide
/-- 44 R192: the visible sink answers "not yet" once; the first step holds, the second, with an RST waiting, emits. -/
theorem test_hold_then_accept :
    let s := { State.reset with
      input := [chunkOf (headerBytes 2 0 2 ++ [0xFF, 0xD8]), .rst], visibleSink := ⟨[false], true⟩ }
    (nextOf (runSteps 1 s)).map (fun t => (t.dec.len, t.dec.frameCount, t.emitted.length, t.held.isSome))
        = some (0, 0, 0, true)
      ∧ (nextOf (runSteps 2 s)).map (fun t => (t.dec.evt, t.dec.frameCount, t.emitted.length, t.input))
        = some (0x0508, 1, 1, [.rst]) := by decide
/-- `withFetchWord` presents the row's word as the next transaction. -/
theorem test_withFetchWord :
    evtLen (step (State.reset.withFetchWord 32 0x80000000)) = some (0x0001, 0)
      ∧ evtLen (step (State.reset.withFetchWord 32 0x7FE00000)) = some (0x0004, 0)
      ∧ evtLen (step (State.reset.withFetchWord 32 0)) = some (0x0002, 0)
      ∧ evtLen (step (State.reset.withFetchWord 32 5)) = some (0x0020, 0)
      ∧ evtLen (step (State.reset.withFetchWord 0 0)) = some (0x0000, 0) := by decide

/-! ## Witnesses: for each statement with hypotheses, a state and operands that meet all of them -/

/-- A partial frame of three bytes, no emission held: a state with history behind it that meets the invariant. -/
def partialFrame : State := heldBytes [0xEF, 0xBE, 0x00]

theorem witness_inv : Inv partialFrame where
  dec_inv := ⟨by decide, by decide, by decide, by decide, by decide⟩
  maxChunk_pos := by decide
  maxChunk_le := by decide
  held_inv := by intro h hh; cases hh
  shapes := by intro e he; cases he

/-- A machine that holds one VisibleFrame of a completed frame, its sink not accepting. -/
def holding : State :=
  { partialFrame with
    held := some { after := { buf := [], len := 0, frameCount := 1, evt := 0x0508 }
                   pending := [.visible (0xFF :: 0xD8 :: List.replicate 128 0) false] }
    visibleSink := ⟨[], false⟩ }

theorem witness_wellFormedFrame : WellFormedFrame f36 := ⟨by decide, by decide, by decide⟩

/-- A well-formed frame of 9900 bytes (95 E4's sizes, its payload zero). -/
def f9900 : List Byte := headerBytes 9872 9868 4 ++ List.replicate 9872 0

theorem f9900_length : f9900.length = 9900 := by
  rw [f9900, List.length_append, List.length_replicate]
  rfl

/-- A short frame, over two memories that differ below its end alone. -/
theorem witness_EarlierBytesReachOnlyShortThermalFrames :
    WellFormedFrame f36 ∧ f36.length < 9896
      ∧ ∀ a, f36.length ≤ a → a < 9896 → Memory.read [(5, 1)] a = Memory.read [] a := by
  have hl : f36.length = 36 := by decide
  refine ⟨witness_wellFormedFrame, by omega, fun a ha _ => ?_⟩
  simp only [Memory.read]
  rw [if_neg (by omega)]

/-- The other side: a frame that covers the window. -/
theorem witness_longFrame : WellFormedFrame f9900 ∧ f9900.length ≤ 1048576 ∧ 9896 ≤ f9900.length :=
  ⟨⟨by decide, by rw [f9900_length]; decide, by decide⟩, by rw [f9900_length]; omega, by rw [f9900_length]; omega⟩

theorem witness_EncodeInvertsDecode :
    decode 4096 (.transfer 0x80000007#32 [1]) = .ok (.chunkErr 0 7)
      ∧ (decode 4096 (.transfer 0x00000002#32 [1, 2]) = .ok (.chunk [1, 2]) ∧ descErr 0x00000002#32 = false
        ∧ descRsvd 0x00000002#32 = 0 ∧ (descLen 0x00000002#32).toNat ≤ 4096) := by decide

/-- Each clause at a boundary: ERR with every other bit set; LEN = MAX_CHUNK + 1; DESC = 0; LEN = MAX_CHUNK. -/
theorem witness_DecodeFollowsOrder :
    (0xFFFFFFFF#32).getLsbD 31 = true
      ∧ ((0x00000003#32).getLsbD 31 = false ∧ 2 < ((0x00000003#32).extractLsb' 0 21).toNat)
      ∧ ((0#32).getLsbD 31 = false ∧ (0#32).extractLsb' 21 10 = 0#10 ∧ (0#32).extractLsb' 0 21 = 0#21)
      ∧ ((0x00000002#32).getLsbD 31 = false ∧ (0x00000002#32).extractLsb' 21 10 = 0#10
        ∧ ((0x00000002#32).extractLsb' 0 21).toNat = 2 ∧ [1#8, 2#8].length = 2) := by decide

theorem witness_OpcodeMapMatches :
    decode 2 (.transfer 0x80000000#32 []) = .ok (.chunkErr 0 0)
      ∧ decode 2 (.transfer 0x00000003#32 []) = .ok (.illegal 0 3) ∧ decode 2 (.transfer 0#32 []) = .ok .chunkEmpty
      ∧ decode 2 (.transfer 0x00000002#32 [1, 2]) = .ok (.chunk [1, 2]) := by decide

theorem witness_StepRunsDecodedTransaction :
    let s := { partialFrame with input := [chunkOf [0x00], .rst] }
    s.held = none ∧ s.input = chunkOf [0x00] :: [.rst] ∧ decode s.maxChunk (chunkOf [0x00]) = .ok (.chunk [0x00]) := by
  decide

theorem witness_IdleCoreHoldsState : partialFrame.held = none ∧ partialFrame.input = [] := by decide

theorem witness_DataPhaseMismatchRefused :
    let s := { partialFrame with input := [.transfer 0x00000003#32 [1, 2]] }
    s.held = none ∧ s.input = .transfer 0x00000003#32 [1, 2] :: [] ∧ (0x00000003#32).getLsbD 31 = false
      ∧ (0x00000003#32).extractLsb' 21 10 = 0#10 ∧ ((0x00000003#32).extractLsb' 0 21).toNat ≤ s.maxChunk
      ∧ [1#8, 2#8].length ≠ ((0x00000003#32).extractLsb' 0 21).toNat := by decide

/-- A machine that holds a ThermalFrame and the VisibleFrame behind it, the visible sink refusing twice. -/
def holdingBoth : State :=
  { holding with
    held := some { after := { buf := [], len := 0, frameCount := 1, evt := 0x0708 }
                   pending := [.thermal (List.replicate 9600 0), .visible (0xFF :: 0xD8 :: List.replicate 128 0) false] }
    visibleSink := ⟨[false, false], false⟩ }

/-- A held frame whose sink refuses, one whose sink accepts, the two in a row, and a hold whose sinks are ready. -/
theorem witness_HoldLiftedOnlyByAcceptance :
    (∃ h e, holding.held = some h ∧ h.pending = [e] ∧ sinkAccepts e holding = false)
      ∧ (∃ h T V w, holdingBoth.held = some h ∧ h.pending = [.thermal T, .visible V w]
          ∧ holdingBoth.thermalSink.accepts = true ∧ holdingBoth.visibleSink.accepts = false)
      ∧ (∃ h, holding.held = some h ∧ SinksReady { holding with visibleSink := Sink.accepting }) :=
  ⟨⟨_, _, rfl, rfl, rfl⟩, ⟨_, _, _, _, rfl, rfl, rfl, rfl⟩, ⟨_, rfl, rfl, rfl⟩⟩

/-- A sink that refuses with an empty queue, and one that uses up two refusals. -/
theorem witness_NeverAcceptingSinkHoldsForever :
    (∃ h b w, holding.held = some h ∧ h.pending = [.visible b w] ∧ NeverAccepts holding.visibleSink)
      ∧ ∃ h b rest, holdingBoth.held = some h ∧ h.pending = .thermal b :: rest
          ∧ NeverAccepts ({ holdingBoth with thermalSink := ⟨[false, false], false⟩ } : State).thermalSink :=
  ⟨⟨_, _, _, rfl, rfl, by decide⟩, ⟨_, _, _, rfl, rfl, by decide⟩⟩

theorem witness_RstClearsRegisters : ∃ h t, holding.held = some h ∧ step holding = .next t := ⟨_, _, rfl, rfl⟩

theorem witness_InvariantAfterReset :
    Memory.wf [(0, 0x5A), (9895, 1)] ∧ 1 ≤ 4096 ∧ 4096 ≤ Config.capacity := by decide

theorem witness_EveryStepKeepsInvariant :
    Inv { partialFrame with input := [.rst] } ∧ ∃ t, step { partialFrame with input := [.rst] } = .next t :=
  ⟨{ witness_inv with }, _, rfl⟩

theorem witness_AppendMatchesRule : 1 ≤ [0x5A#8].length ∧ [0x5A#8].length ≤ 1048576 := by decide

/-- What the CHUNK statements ask of the operand and the machine. -/
abbrev chunkRuns (data : List Byte) (s : State) : Prop :=
  1 ≤ data.length ∧ data.length ≤ s.maxChunk ∧ s.maxChunk ≤ 1048576 ∧ s.held = none

theorem witness_ChunkResyncs :
    chunkRuns [0x01] partialFrame
      ∧ ∃ i, i < min (appendBase partialFrame.dec [0x01] + 1) 4
          ∧ (partialFrame.dec.buf.write (appendBase partialFrame.dec [0x01]) [0x01]).read i
            ≠ [0xEF#8, 0xBE#8, 0x00#8, 0x00#8].getD i 0#8 := ⟨by decide, 3, by decide⟩

theorem witness_ChunkWaitsForHeader :
    chunkRuns [0x00] partialFrame
      ∧ (∀ i, i < min (appendBase partialFrame.dec [0x00] + 1) 4 →
          (partialFrame.dec.buf.write (appendBase partialFrame.dec [0x00]) [0x00]).read i
            = [0xEF#8, 0xBE#8, 0x00#8, 0x00#8].getD i 0#8)
      ∧ appendBase partialFrame.dec [0x00] + 1 ≤ 27 := by decide

/-- WAIT_FRAME with the gate one byte short: FS = 1 and 28 bytes. -/
theorem witness_ChunkWaitsForFrame :
    let data := headerBytes 1 1 0
    let b := partialFrame.dec.buf.write (appendBase partialFrame.dec data) data
    let n := appendBase partialFrame.dec data + data.length
    chunkRuns data partialFrame
      ∧ (∀ i, i < min n 4 → b.read i = [0xEF#8, 0xBE#8, 0x00#8, 0x00#8].getD i 0#8) ∧ 28 ≤ n
      ∧ n < le32 b 8 + 28 := by decide

/-- What the three completion statements ask of the chunk and of the machine, whatever its sinks. -/
abbrev chunkCompletes (data : List Byte) (s : State) : Prop :=
  let b := s.dec.buf.write (appendBase s.dec data) data
  let n := appendBase s.dec data + data.length
  chunkRuns data s ∧ (∀ i, i < min n 4 → b.read i = [0xEF#8, 0xBE#8, 0x00#8, 0x00#8].getD i 0#8) ∧ 28 ≤ n
    ∧ le32 b 8 + 28 ≤ n

/-- The sizes TS and JS of the frame in the buffer after the copy. -/
abbrev sizesAfter (data : List Byte) (s : State) : Nat × Nat :=
  let b := s.dec.buf.write (appendBase s.dec data) data
  (le32 b 12, le32 b 16)

/-- Sinks that refuse every frame: a frame with TS = JS = 0 completes all the same. -/
theorem witness_ChunkCompletesFrame_noEmission :
    let s := { partialFrame with thermalSink := ⟨[], false⟩, visibleSink := ⟨[], false⟩ }
    chunkCompletes (headerBytes 0 0 0) s ∧ sizesAfter (headerBytes 0 0 0) s = (0, 0) := by decide

/-- F36 has TS = 4 and JS = 4; both sinks accept once and then refuse. -/
theorem witness_ChunkCompletesFrame :
    let s := { partialFrame with thermalSink := ⟨[true], false⟩, visibleSink := ⟨[true, false], true⟩ }
    chunkCompletes f36 s ∧ sizesAfter f36 s = (4, 4) ∧ s.thermalSink.accepts = true ∧ s.visibleSink.accepts = true := by
  decide

theorem witness_ChunkHeldByThermalSink :
    let s := { partialFrame with thermalSink := ⟨[false], true⟩ }
    chunkCompletes f36 s ∧ sizesAfter f36 s = (4, 4) ∧ s.thermalSink.accepts = false := by decide

/-- Behind a thermal frame that is accepted, and with TS = 0, the thermal sink refusing. -/
theorem witness_ChunkHeldByVisibleSink :
    let s := { partialFrame with visibleSink := ⟨[false], true⟩ }
    let s' := { s with thermalSink := ⟨[], false⟩ }
    let noThermal := headerBytes 2 0 2 ++ [0xFF, 0xD8]
    (chunkCompletes f36 s ∧ sizesAfter f36 s = (4, 4) ∧ s.thermalSink.accepts = true ∧ s.visibleSink.accepts = false)
      ∧ chunkCompletes noThermal s' ∧ sizesAfter noThermal s' = (0, 2) ∧ s'.visibleSink.accepts = false := by decide

theorem witness_OthersFrame : ∀ data, Instr.rst ≠ .chunk data := by intro data h; cases h

/-- CHUNK answers a next state that ended, with WAIT_HEADER raised; the other final events by the tests above. -/
theorem witness_ChunkFrame :
    ∃ t, exec (.chunk [0x00]) partialFrame = .next t ∧ t.held = none ∧ raised .waitHeader t.dec.evt = true :=
  ⟨_, rfl, rfl, by decide⟩

theorem witness_ChunkTransitions :
    (evtLen (exec (.chunk [0x01]) partialFrame)).map (fun p => raised .resync p.1) = some true
      ∧ (evtLen (exec (.chunk [0x00]) partialFrame)).map (fun p => raised .waitHeader p.1) = some true
      ∧ (evtLen (exec (.chunk (headerBytes 1 1 0)) partialFrame)).map (fun p => raised .waitFrame p.1) = some true
      ∧ (evtLen (exec (.chunk (headerBytes 0 0 0)) partialFrame)).map (fun p => raised .frameDone p.1) = some true := by
  decide

/-- Marker and overflow at once: `len = C − 4` and a 4-byte marker chunk (60 R213 point 7). -/
theorem witness_EventSetsArePossible :
    let s := { partialFrame with dec := { partialFrame.dec with len := 1048572 } }
    markerTest [0xEF, 0xBE, 0, 0] = true ∧ overflowTest s.dec [0xEF, 0xBE, 0, 0] = true ∧ s.held = none
      ∧ evtLen (exec (.chunk [0xEF, 0xBE, 0, 0]) s) = some (0x0058, 4) := by decide

theorem witness_MarkerChunkNeverResyncs : markerTest f36 = true ∧ chunkRuns f36 partialFrame := by decide

/-- The overflow at its boundary, `len + L = C`. -/
theorem witness_OverflowingNoiseEmptiesBuffer :
    let s := { partialFrame with dec := { partialFrame.dec with len := 1048572 } }
    4 ≤ [1#8, 2#8, 3#8, 4#8].length ∧ chunkRuns [1, 2, 3, 4] s ∧ markerTest [1, 2, 3, 4] = false
      ∧ 1048576 ≤ s.dec.len.toNat + 4 := by decide

/-- Noise with a marker inside it. -/
theorem witness_NoiseIntoEmptyIsDropped :
    chunkRuns [0x12, 0xEF, 0xBE, 0x00, 0x00] State.reset ∧ State.reset.dec.len = 0#21
      ∧ markerTest [0x12, 0xEF, 0xBE, 0x00, 0x00] = false := by decide

theorem witness_TryParseMatchesRule :
    (heldBytes (f36.take 27)).dec.len.toNat < 28 ∧ 28 ≤ (heldBytes (f36.take 28)).dec.len.toNat := by decide

theorem witness_UnusedHeaderBytesIgnored :
    ∀ a, 8 ≤ a → a < 20 → Memory.read [(4, 1), (20, 1)] a = Memory.read [] a := by
  intro a h1 h2
  simp only [Memory.read]
  rw [if_neg (by omega), if_neg (by omega)]

theorem witness_CompletionTestIsExact :
    (heldBytes (headerBytes 1048549 0 0)).dec.len.toNat ≤ 1048576
      ∧ 1048548 < (readHeader (heldBytes (headerBytes 1048549 0 0)).dec.buf).frameSize := by decide

/-- Two memories that differ in a byte between two rows, and outside the window. -/
theorem witness_ThermalReadsWindowOnly :
    ∀ y j, y < 60 → j < 160 → Memory.read [(59, 1), (220, 1), (9896, 1)] (60 + 164 * y + j)
      = Memory.read [] (60 + 164 * y + j) := by
  intro y j hy hj
  simp only [Memory.read]
  rw [if_neg (by omega), if_neg (by omega), if_neg (by omega)]

theorem witness_SyntheticPayloadSamples :
    ∃ m : Memory, ∀ p, p < 9868 → m.read (28 + p) = BitVec.ofNat 8 (7 * p + 3) := by
  refine ⟨Memory.write [] 28 ((List.range 9868).map fun p => BitVec.ofNat 8 (7 * p + 3)), fun p hp => ?_⟩
  rw [read_write_inside _ _ _ (by rwa [List.length_map, List.length_range])]
  rw [List.getElem_map, List.getElem_range]

/-- A two-byte slice with the marker, and a one-byte slice without it. -/
theorem witness_SoiWarningMatchesRule :
    soiMissing (jpegSlice [(28, 0xFF), (29, 0xD8)] (28 + 0) 2) = false
      ∧ soiMissing (jpegSlice [(28, 0xFF), (29, 0xD8)] (28 + 0) 1) = true := by decide

/-- The header that fills its frame exactly: TS + JS = FS, `FS + 28 = len`. -/
theorem witness_ConsistentHeaderStaysInFrame :
    isComplete 72 100 = true ∧ 100 ≤ 1048576 ∧ 62 + 10 ≤ 72 ∧ 0 < 10 := by decide

/-- F36 in two chunks with a failed read between them, into a core that holds a partial frame. -/
theorem witness_SplitFrameDecodesAsWhole :
    let is : List Instr := [.chunk (f36.take 30), .chunkErr 0 7] ++ [.chunk (f36.drop 30)]
    let s := { partialFrame with input := is.map encode ++ [.rst] }
    Inv s ∧ s.held = none ∧ SinksReady s ∧ WellFormedFrame f36
      ∧ (∀ i ∈ is, WellFormed s.maxChunk i ∧ i ≠ .rst) ∧ (chunksOf is).flatten = f36
      ∧ 4 ≤ ((chunksOf is).headD []).length ∧ (∀ c ∈ (chunksOf is).tail, markerTest c = false)
      ∧ f36.length ≤ 1048575 ∧ s.input = is.map encode ++ [.rst] :=
  ⟨{ witness_inv with }, by decide, by decide, witness_wellFormedFrame, by decide, by decide, by decide, by decide,
    by decide, rfl⟩

/-- Premise (a)'s other half: F36 byte at a time into an EMPTY core whose last transaction was a failed read. -/
theorem witness_SplitFrame_byteAtATime :
    let is : List Instr := (f36.take 35).map (fun b => .chunk [b]) ++ [.chunk (f36.drop 35)]
    let s := { State.reset with dec := { State.reset.dec with evt := 1 }, input := is.map encode }
    Inv s ∧ s.dec.len = 0#21 ∧ SinksReady s ∧ (∀ i ∈ is, WellFormed s.maxChunk i ∧ i ≠ .rst)
      ∧ (chunksOf is).flatten = f36 ∧ (∀ c ∈ (chunksOf is).tail, markerTest c = false) :=
  ⟨⟨⟨by decide, by decide, by decide, by decide, by decide⟩, by decide, by decide, (by intro h hh; cases hh),
    (by intro e he; cases he)⟩, by decide, by decide, by decide, by decide, by decide⟩

theorem witness_FrameStreamEmitsEachInOrder :
    let s := { partialFrame with input := [f36, f36].map chunkOf ++ [] }
    Inv s ∧ s.held = none ∧ SinksReady s ∧ (∀ f ∈ [f36, f36], WellFormedFrame f ∧ f.length ≤ s.maxChunk) :=
  ⟨{ witness_inv with }, by decide, by decide, by
    intro f hf
    simp only [List.mem_cons, List.not_mem_nil, or_false, or_self] at hf
    subst hf
    exact ⟨witness_wellFormedFrame, by decide⟩⟩

theorem witness_BytesAfterFrameAreDiscarded :
    WellFormedFrame f36 ∧ (f36 ++ f36).length ≤ partialFrame.maxChunk ∧ partialFrame.held = none
      ∧ SinksReady partialFrame := ⟨witness_wellFormedFrame, by decide, by decide, by decide⟩

end Sys2Proof.Tests
end

section
/-! PROOFS. Reset, the status port and the machine's invariant (10_state.md): O13, O49, O14, O15. -/
namespace Sys2Proof.Machine

open Sys2Proof.Safety

/-! ## STATE as a number (10 R29) -/

theorem fsmState_toNat (d : FrameDecoder) :
    (fsmState d).toNat = if d.len.toNat = 0 then 0 else if d.len.toNat ≤ 27 then 1 else 2 := by
  simp only [fsmState, Config.hdr, ← Nat.lt_succ_iff (n := 27)]
  split
  · rfl
  · split <;> rfl

/-- STATE never reads 3 (10 R29). -/
theorem fsmState_ne_three (d : FrameDecoder) : fsmState d ≠ 3#2 := by
  intro h
  have := congrArg BitVec.toNat h
  rw [fsmState_toNat] at this
  split at this
  · cases this
  · split at this <;> cases this

/-! ## The decoder's invariant -/

/-- No event at all, as after RST (44 R183). -/
theorem possibleEvents_zero : possibleEvents 0 = true := by decide

/-- An EMPTY core meets the invariant whatever its `BUF` holds: points 2 and 3 of 10 R31 ask nothing of it. -/
theorem decoderInv_of_empty {d : FrameDecoder} (hbuf : d.buf.wf) (hlen : d.len = 0)
    (hevt : possibleEvents d.evt = true) : DecoderInv d where
  buf_wf := hbuf
  len_le := by simp [hlen]
  front := by simp [MarkerAtFront, hlen]
  incomplete := by simp [FrameIncomplete, hlen]
  events := hevt

/-- A dropped transaction rewrites EVT alone (44 R184-R186). -/
theorem decoderInv_drop {d : FrameDecoder} (hd : DecoderInv d) {e : Event}
    (he : possibleEvents (raise e 0) = true) : DecoderInv (raiseEvent e (clearEvents d)) :=
  { hd with events := he }

/-! ## The append keeps points 1 and 2 of 10 R31 -/

theorem copyChunk_buf_wf {d : FrameDecoder} {data : List Byte} (hbuf : d.buf.wf)
    (hlen : data.length ≤ Config.capacity) : (copyChunk data d).buf.wf :=
  write_wf hbuf (appendBase_fits d hlen)

theorem copyChunk_len_le (d : FrameDecoder) {data : List Byte} (hlen : data.length ≤ Config.capacity) :
    (copyChunk data d).len.toNat ≤ Config.capacity := by
  rw [copyChunk_len_toNat d hlen]
  exact appendBase_fits d hlen

/-- A chunk that begins with the marker starts at index 0 (40 R105). -/
theorem appendBase_of_markerTest (d : FrameDecoder) {data : List Byte} (hm : markerTest data = true) :
    appendBase d data = 0 := by
  simp [appendBase, hm]

theorem getD_of_markerTest {data : List Byte} (hm : markerTest data = true) {i : Nat} (hi : i < 4) :
    data.getD i 0x00#8 = Config.marker.getD i 0x00#8 := by
  simp only [markerTest, marker_length, Bool.and_eq_true, beq_iff_eq] at hm
  rw [← hm.2, List.getD_eq_getElem?_getD, List.getD_eq_getElem?_getD, List.getElem?_take_of_lt hi]

/-- A chunk that begins with the marker passes its front test, so it never resyncs (40 R105 corner 3, 60 R213 point 3). -/
theorem frontTest_copyChunk_of_markerTest (d : FrameDecoder) {data : List Byte}
    (hlen : data.length ≤ Config.capacity) (hm : markerTest data = true) :
    frontTest (copyChunk data d) = true := by
  rw [frontTest_iff]
  intro i hi
  rw [copyChunk_len_toNat d hlen, appendBase_of_markerTest d hm, Nat.zero_add] at hi
  rw [copyChunk_buf, appendBase_of_markerTest d hm, read_write, if_pos (by omega)]
  exact getD_of_markerTest hm (by omega)

/-! ## The CHUNK rule, end by end -/

/-- The four ends of a CHUNK (44 R187, R191), each with the conditions that lead to it. -/
theorem chunkResult_cases (data : List Byte) (d : FrameDecoder) :
    let c := copyChunk data (clearEvents d)
    (frontTest c = false ∧ chunkResult data d = (resetCursor (raiseEvent .resync c), []))
      ∨ (frontTest c = true ∧ c.len.toNat < 28 ∧ chunkResult data d = (raiseEvent .waitHeader c, []))
      ∨ (frontTest c = true ∧ 28 ≤ c.len.toNat ∧ c.len.toNat < le32 c.buf 8 + 28
          ∧ chunkResult data d = (raiseEvent .waitFrame c, []))
      ∨ (frontTest c = true ∧ 28 ≤ c.len.toNat ∧ le32 c.buf 8 + 28 ≤ c.len.toNat
          ∧ chunkResult data d = (completeFrame (readHeader c.buf) c, completionFrames (readHeader c.buf) c.buf)) := by
  intro c
  have hc : isComplete (readHeader c.buf).frameSize c.len.toNat = decide (le32 c.buf 8 + 28 ≤ c.len.toNat) := rfl
  rw [chunkResult_eq]
  simp only [show copyChunk data (clearEvents d) = c from rfl, hc]
  by_cases hf : frontTest c = true
  · by_cases hl : c.len.toNat < 28
    · simp [hf, hl]
    · by_cases hn : le32 c.buf 8 + 28 ≤ c.len.toNat
      · simp [hf, hl, hn, Nat.not_lt.1 hl]
      · simp [hf, hl, hn, Nat.not_lt.1 hl, Nat.not_le.1 hn]
  · simp [hf]

/-! ## The events of a CHUNK (60 R213)

`m`, `o`, `t`, `v`, `w`, `k` stand for the marker test, the overflow test, TS > 0, JS > 0, the missing SOI and the
slice past `BUF`'s end: whatever they are, the set is one of 60 R213. -/

theorem chunkEvents_resync : ∀ o : Bool,
    chunkEvents (raise .resync (raiseIf o .resetOverflow (raiseIf false .resetMarker 0))) = true := by decide

theorem chunkEvents_waitHeader : ∀ o m : Bool,
    chunkEvents (raise .waitHeader (raiseIf o .resetOverflow (raiseIf m .resetMarker 0))) = true := by decide

theorem chunkEvents_waitFrame : ∀ o m : Bool,
    chunkEvents (raise .waitFrame (raiseIf o .resetOverflow (raiseIf m .resetMarker 0))) = true := by decide

theorem chunkEvents_completion : ∀ o m t v w k : Bool,
    chunkEvents (raiseIf v .visibleEmit (raiseIf (v && w) .jpegWarn (raiseIf (v && k) .boundsSkip
      (raiseIf t .thermalEmit (raise .frameDone (raiseIf o .resetOverflow (raiseIf m .resetMarker 0))))))) = true := by
  decide

theorem possibleEvents_of_chunkEvents {evt : BitVec 16} (h : chunkEvents evt = true) : possibleEvents evt = true := by
  simp [possibleEvents, h]

/-- No thermal sample is skipped (42 R143), so a completion raises BOUNDS_SKIP for its VisibleFrame alone. -/
theorem chunkEvents_completionEvents (h : FrameHeader) (b : Memory) (data : List Byte) (d : FrameDecoder) :
    chunkEvents (completionEvents h b (copyChunk data (clearEvents d)).evt) = true := by
  simp only [completionEvents, thermalSkips_eq, Bool.and_false]
  exact chunkEvents_completion ..

theorem raised_frameDone_completionEvents (h : FrameHeader) (b : Memory) (evt : BitVec 16) :
    raised .frameDone (completionEvents h b evt) = true := by
  simp [completionEvents, raised_raiseIf, raised_raise]

/-! ## What a CHUNK leaves in the core and emits -/

/-- A kept chunk whose frame is still to be completed leaves the invariant, by the front test and the completion gate. -/
theorem decoderInv_kept {d : FrameDecoder} {data : List Byte} {e : Event} (hbuf : d.buf.wf)
    (hlen : data.length ≤ Config.capacity) (hfront : frontTest (copyChunk data d) = true)
    (hinc : FrameIncomplete (copyChunk data d))
    (hevt : chunkEvents (raise e (copyChunk data d).evt) = true) :
    DecoderInv (raiseEvent e (copyChunk data d)) where
  buf_wf := copyChunk_buf_wf hbuf hlen
  len_le := copyChunk_len_le d hlen
  front := (frontTest_iff _).1 hfront
  incomplete := hinc
  events := possibleEvents_of_chunkEvents hevt

theorem decoderInv_chunkResult {d : FrameDecoder} {data : List Byte} (hbuf : d.buf.wf)
    (hlen : data.length ≤ Config.capacity) : DecoderInv (chunkResult data d).1 := by
  have hwf : (copyChunk data (clearEvents d)).buf.wf := copyChunk_buf_wf hbuf hlen
  rcases chunkResult_cases data d with
    ⟨hf, hr⟩ | ⟨hf, hl, hr⟩ | ⟨hf, -, hn, hr⟩ | ⟨-, -, -, hr⟩ <;> rw [hr]
  · have hm : markerTest data = false := by
      by_contra hm
      rw [frontTest_copyChunk_of_markerTest _ hlen (by simpa using hm)] at hf
      cases hf
    refine decoderInv_of_empty hwf rfl (possibleEvents_of_chunkEvents ?_)
    simp only [resetCursor_evt, raiseEvent_evt, copyChunk_evt, hm]
    exact chunkEvents_resync _
  · exact decoderInv_kept hbuf hlen hf (fun h => by omega) (chunkEvents_waitHeader _ _)
  · exact decoderInv_kept hbuf hlen hf (fun _ => hn) (chunkEvents_waitFrame _ _)
  · exact decoderInv_of_empty hwf rfl (possibleEvents_of_chunkEvents (chunkEvents_completionEvents ..))

/-- A CHUNK that emits anything completed a frame: it leaves the core EMPTY and one more frame counted (44 R188, R189). -/
theorem chunkResult_of_emits {d : FrameDecoder} {data : List Byte} (h : (chunkResult data d).2 ≠ []) :
    ∃ b, (chunkResult data d).2 = completionFrames (readHeader b) b ∧ (chunkResult data d).1.len = 0
      ∧ (chunkResult data d).1.frameCount = d.frameCount + 1
      ∧ raised .frameDone (chunkResult data d).1.evt = true := by
  rcases chunkResult_cases data d with ⟨-, hr⟩ | ⟨-, -, hr⟩ | ⟨-, -, -, hr⟩ | ⟨-, -, -, hr⟩ <;> rw [hr] at h ⊢
  case inr.inr.inr => exact ⟨_, rfl, rfl, rfl, raised_frameDone_completionEvents ..⟩
  all_goals exact absurd rfl h

/-! ## The frames on the ports (30 R80, R81) -/

/-- A ThermalFrame is 60 rows of 80 samples of two bytes. -/
theorem frameShape_thermal (m : Memory) : frameShape (.thermal (thermalFrame m)) := by
  simp [frameShape, thermalFrame, thermalRow, sampleBytes, List.length_flatMap, Config.rows, Config.columns]

/-- The VisibleFrame of a JPEG of one byte or more ends in its 128 bytes of padding (43 R165). -/
theorem frameShape_visible (m : Memory) (base : Nat) {n : Nat} (hn : 0 < n) (w : Bool) :
    frameShape (.visible (visibleFrame m base n) w) := by
  have hl : (visibleFrame m base n).length = n + 128 := by simp [visibleFrame, jpegSlice_length]
  refine ⟨by omega, ?_⟩
  rw [hl, Nat.add_sub_cancel]
  exact List.drop_left' (jpegSlice_length m base n)

theorem frameShape_completionFrames (h : FrameHeader) (m : Memory) :
    ∀ e ∈ completionFrames h m, frameShape e := by
  intro e he
  rcases List.mem_append.1 he with he | he
  · obtain ⟨-, rfl⟩ : 0 < h.thermalSize ∧ e = .thermal (thermalFrame m) := by simpa using he
    exact frameShape_thermal m
  · split at he
    · next hj =>
      rw [List.mem_singleton.1 he]
      exact frameShape_visible m _ hj _
    · cases he

/-! ## The machine's invariant -/

/-- Handing frames to the sinks keeps the invariant: the transaction ends in `after`, or it is held with frames that
are still to be accepted and the core's state as it was. -/
theorem inv_settle {s : State} {after : FrameDecoder} {frames : List Emission} (hs : Inv s)
    (hafter : DecoderInv after) (hheld : frames ≠ [] → HeldInv s.dec { after := after, pending := frames }) :
    Inv (settle after frames s) := by
  have hshape : ∀ e ∈ frames, frameShape e := fun e he => (hheld (List.ne_nil_of_mem he)).shapes e he
  obtain ⟨done, rest, rfl, hem, hmax, -, hend⟩ := settle_cases after frames s
  have hemitted : ∀ e ∈ (settle after (done ++ rest) s).emitted, frameShape e := by
    intro e he
    rw [hem] at he
    rcases List.mem_append.1 he with he | he
    · exact hs.shapes e he
    · exact hshape e (List.mem_append_left _ he)
  rcases hend with ⟨-, hdec, hnone⟩ | ⟨hrest, hdec, hsome⟩
  · exact ⟨by rwa [hdec], hmax ▸ hs.maxChunk_pos, hmax ▸ hs.maxChunk_le, by simp [hnone], hemitted⟩
  · refine ⟨by rw [hdec]; exact hs.dec_inv, hmax ▸ hs.maxChunk_pos, hmax ▸ hs.maxChunk_le, ?_, hemitted⟩
    intro h hh
    obtain rfl := Option.some.inj (hsome.symm.trans hh)
    rw [hdec]
    exact { hheld (by simp [hrest]) with
      waiting := hrest, shapes := fun e he => hshape e (List.mem_append_right _ he) }

/-- Replacing the registers of a core that holds no emission keeps the invariant where the new ones meet it. -/
theorem inv_withDec {s : State} (hs : Inv s) (hnone : s.held = none) {d : FrameDecoder} (hd : DecoderInv d) :
    Inv { s with dec := d } :=
  { hs with dec_inv := hd, held_inv := by simp [hnone] }

/-- CHUNK keeps the invariant (44 R187). -/
theorem inv_execChunk {data : List Byte} {s t : State} (hs : Inv s) (h : execChunk data s = .next t) : Inv t := by
  obtain ⟨-, hmax, -, rfl⟩ := execChunk_next h
  have hafter : DecoderInv (chunkResult data s.dec).1 :=
    decoderInv_chunkResult hs.dec_inv.buf_wf (hmax.trans hs.maxChunk_le)
  refine inv_settle hs hafter fun hne => ?_
  obtain ⟨b, hframes, hempty, hcount, hdone⟩ := chunkResult_of_emits hne
  exact ⟨hafter, hempty, hcount, hdone, hne, hframes ▸ frameShape_completionFrames _ b⟩

/-- Each of the five transactions keeps the invariant. -/
theorem inv_exec {i : Instr} {s t : State} (hs : Inv s) (hnone : s.held = none) (h : exec i s = .next t) : Inv t := by
  cases i with
  | chunk data => exact inv_execChunk hs h
  | chunkErr rsvd len => cases h; exact inv_withDec hs hnone (decoderInv_drop hs.dec_inv (by decide))
  | illegal rsvd len => cases h; exact inv_withDec hs hnone (decoderInv_drop hs.dec_inv (by decide))
  | chunkEmpty => cases h; exact inv_withDec hs hnone (decoderInv_drop hs.dec_inv (by decide))
  | rst => cases h; exact inv_withDec hs hnone (decoderInv_of_empty hs.dec_inv.buf_wf rfl possibleEvents_zero)

end Sys2Proof.Machine

/-! ## The statements -/

namespace Sys2Proof.Certificates

open Sys2Proof.Machine Sys2Proof.Safety

/-- Settles O15: a step resumes a hold, idles or runs a transaction (`step_cases`), and each keeps the invariant. -/
theorem everyStepKeepsInvariant : Obligations.EveryStepKeepsInvariant := by
  intro s t hs h
  rcases step_cases h with ⟨k, hk, rfl⟩ | ⟨-, -, rfl⟩ | ⟨ev, rest, i, hnone, -, -, hexec⟩
  · have hheld := hs.held_inv k hk
    exact inv_settle hs hheld.after_inv fun _ => hheld
  · exact hs
  · exact inv_exec (s := { s with input := rest }) { hs with } hnone hexec

/-- Settles O13, by computation: these are the values that `State.resetWith` gives. -/
theorem resetLeavesTable : Obligations.ResetLeavesTable :=
  fun _ _ => ⟨rfl, rfl, rfl, rfl⟩

/-- Settles O14: the core is EMPTY after reset, holds nothing and has emitted nothing. -/
theorem invariantAfterReset : Obligations.InvariantAfterReset := by
  intro bufInit mc hbuf hpos hle
  exact {
    dec_inv := decoderInv_of_empty hbuf rfl possibleEvents_zero
    maxChunk_pos := hpos
    maxChunk_le := hle
    held_inv := by simp
    shapes := by simp }

/-- Settles O49: every field fits its 32-bit word, so reading it through the port loses and adds no bit. -/
theorem statusPortMatchesMap : Obligations.StatusPortMatchesMap := by
  intro s
  have hstate : (statusRead 0#2 s).toNat = (fsmState s.dec).toNat :=
    BitVec.toNat_setWidth_of_le (show 2 ≤ 32 by decide)
  have hlen : (statusRead 1#2 s).toNat = s.dec.len.toNat := BitVec.toNat_setWidth_of_le (show 21 ≤ 32 by decide)
  have hevt : (statusRead 3#2 s).toNat = s.dec.evt.toNat := BitVec.toNat_setWidth_of_le (show 16 ≤ 32 by decide)
  exact ⟨hstate.trans (fsmState_toNat s.dec), hlen, rfl, hevt, fsmState_ne_three s.dec⟩

end Sys2Proof.Certificates
end

section
/-! PROOFS. `BUF` and the byte stores (20_memory.md): O31, O44. -/
namespace Sys2Proof.Machine

/-! ## The frame of the CHUNK rule -/

/-- However a CHUNK ends, `BUF` is left with the append copy alone (20 R60, 40 R105). -/
theorem chunkResult_buf (data : List Byte) (d : FrameDecoder) :
    (chunkResult data d).1.buf = d.buf.write (appendBase d data) data := by
  rcases chunkResult_cases data d with ⟨-, hr⟩ | ⟨-, -, hr⟩ | ⟨-, -, -, hr⟩ | ⟨-, -, -, hr⟩ <;> simp [hr]

/-- The append raises none of the final events, FRAME_DONE among them (40 R105). -/
theorem raised_frameDone_copyChunk (data : List Byte) (d : FrameDecoder) :
    raised .frameDone (copyChunk data (clearEvents d)).evt = false := by
  simpa [raised_raiseIf] using raised_zero .frameDone

/-- A CHUNK counts a frame exactly when it raises FRAME_DONE (44 R189). -/
theorem chunkResult_frameCount (data : List Byte) (d : FrameDecoder) :
    (chunkResult data d).1.frameCount
      = if raised .frameDone (chunkResult data d).1.evt then d.frameCount + 1 else d.frameCount := by
  have hcopy := raised_frameDone_copyChunk data d
  rcases chunkResult_cases data d with ⟨-, hr⟩ | ⟨-, -, hr⟩ | ⟨-, -, -, hr⟩ | ⟨-, -, -, hr⟩ <;> rw [hr]
  case inr.inr.inr => exact (if_pos (raised_frameDone_completionEvents ..)).symm
  all_goals simp [raised_raise, -copyChunk_evt, hcopy]

/-! ## The window of the ThermalFrame -/

/-- A sample of the grid goes out as the two bytes of its row it was read from (42 R142, R143, 20 R54). -/
theorem sampleBytes_thermalSample (m : Memory) {x y : Nat} (hx : x < 80) (hy : y < 60) :
    sampleBytes (thermalSample m x y)
      = [m.read (60 + 164 * y + 2 * x), m.read (60 + 164 * y + (2 * x + 1))] := by
  rw [thermalSample, if_pos (sample_in_bounds hx hy), sampleBytes_le16, thermalAddr_eq, Nat.add_assoc _ (2 * x) 1]

/-- Row `y` of the ThermalFrame is fixed by the 160 bytes of `BUF` it is read from (42 R147). -/
theorem thermalRow_congr {m m' : Memory} {y : Nat} (hy : y < 60)
    (h : ∀ j, j < 160 → m.read (60 + 164 * y + j) = m'.read (60 + 164 * y + j)) :
    thermalRow m y = thermalRow m' y := by
  refine List.flatMap_congr fun x hx => ?_
  have hx : x < 80 := List.mem_range.1 hx
  rw [sampleBytes_thermalSample m hx hy, sampleBytes_thermalSample m' hx hy, h _ (by omega), h _ (by omega)]

end Sys2Proof.Machine

/-! ## The statements -/

namespace Sys2Proof.Certificates

open Sys2Proof.Machine Sys2Proof.Safety

/-- Settles O31: the CHUNK rule writes the append copy alone (`chunkResult_buf`) and counts with FRAME_DONE
(`chunkResult_frameCount`), and what it leaves is handed over by `settle`, now or when the hold is lifted. -/
theorem chunkFrame : Obligations.ChunkFrame := by
  intro data s t h
  obtain ⟨-, -, -, rfl⟩ := execChunk_next h
  have hread : ∀ a, (a < appendBase s.dec data ∨ appendBase s.dec data + data.length ≤ a) →
      (chunkResult data s.dec).1.buf.read a = s.dec.buf.read a := by
    intro a ha
    rw [chunkResult_buf, read_write_outside _ _ _ ha]
  obtain ⟨done, rest, -, hem, hmax, hin, hend⟩ :=
    settle_cases (chunkResult data s.dec).1 (chunkResult data s.dec).2 s
  rcases hend with ⟨-, hdec, hnone⟩ | ⟨-, hdec, hsome⟩
  · refine ⟨fun a ha => ⟨?_, by simp [hnone]⟩, hmax, hin, ⟨done, hem⟩, fun _ => ?_, fun hne => absurd hnone hne⟩
    · rw [hdec, hread a ha]
    · rw [hdec]
      exact chunkResult_frameCount data s.dec
  · refine ⟨fun a ha => ⟨by rw [hdec], fun k hk => ?_⟩, hmax, hin, ⟨done, hem⟩, by simp [hsome], fun _ => hdec⟩
    obtain rfl := Option.some.inj (hsome.symm.trans hk)
    exact hread a ha

/-- Settles O44, row by row: each row reads its own run of 160 bytes of the window (`thermalRow_congr`). -/
theorem thermalReadsWindowOnly : Obligations.ThermalReadsWindowOnly := by
  intro m m' h
  refine List.flatMap_congr fun y hy => ?_
  have hy : y < 60 := List.mem_range.1 hy
  exact thermalRow_congr hy fun j => h y j hy

end Sys2Proof.Certificates
end

section
/-! PROOFS. The encoding (30_encoding.md): O1 to O7, O10. -/
namespace Sys2Proof

/-! ## The remaining rows of the decoder, and all of them at once (30 R72) -/

/-- The reset pin (30 R83). -/
@[simp] theorem decode_rst (mc : Nat) : decode mc .rst = .ok .rst := rfl

/-- Order 1 of 30 R72. -/
theorem decode_chunkErr {mc : Nat} {desc : Word} {data : List Byte} (he : descErr desc = true) :
    decode mc (.transfer desc data) = .ok (.chunkErr (descRsvd desc) (descLen desc)) := by
  rw [decode, if_pos he]

/-- Order 3 of 30 R72. -/
theorem decode_chunkEmpty {mc : Nat} {desc : Word} (he : descErr desc = false) (hr : descRsvd desc = 0)
    (hl : descLen desc = 0) : decode mc (.transfer desc []) = .ok .chunkEmpty := by
  simp [decode, he, hr, hl]

/-- A legal, successful descriptor is refused beside a data phase of another length (30 R70, log 6). -/
theorem decode_dataPhaseLength {mc : Nat} {desc : Word} {data : List Byte} (he : descErr desc = false)
    (hr : descRsvd desc = 0) (hle : (descLen desc).toNat ≤ mc) (hne : data.length ≠ (descLen desc).toNat) :
    decode mc (.transfer desc data) = .error .dataPhaseLength := by
  simp [decode, he, hr, hle, hne]

theorem descLen_pos {desc : Word} (h : descLen desc ≠ 0) : 1 ≤ (descLen desc).toNat :=
  Nat.one_le_iff_ne_zero.2 fun h0 => h (BitVec.eq_of_toNat_eq h0)

theorem legal_of_not_illegal {mc : Nat} {desc : Word} (h : ¬(descRsvd desc ≠ 0 ∨ mc < (descLen desc).toNat)) :
    descRsvd desc = 0 ∧ (descLen desc).toNat ≤ mc := by simpa using h

/-- The four transactions that a transfer decodes to, each with what its descriptor and data phase then are. -/
theorem decode_cases {mc : Nat} {desc : Word} {data : List Byte} {i : Instr}
    (h : decode mc (.transfer desc data) = .ok i) :
    (descErr desc = true ∧ i = .chunkErr (descRsvd desc) (descLen desc))
      ∨ (descErr desc = false ∧ (descRsvd desc ≠ 0 ∨ mc < (descLen desc).toNat)
        ∧ i = .illegal (descRsvd desc) (descLen desc))
      ∨ (descErr desc = false ∧ descRsvd desc = 0 ∧ descLen desc = 0 ∧ data = [] ∧ i = .chunkEmpty)
      ∨ (descErr desc = false ∧ descRsvd desc = 0 ∧ (descLen desc).toNat = data.length ∧ 1 ≤ data.length
        ∧ data.length ≤ mc ∧ i = .chunk data) := by
  cases he : descErr desc with
  | true =>
    cases (decode_chunkErr he).symm.trans h
    exact .inl ⟨rfl, rfl⟩
  | false =>
    refine .inr ?_
    by_cases hill : descRsvd desc ≠ 0 ∨ mc < (descLen desc).toNat
    · cases (decode_illegal he hill).symm.trans h
      exact .inl ⟨rfl, hill, rfl⟩
    obtain ⟨hr, hle⟩ := legal_of_not_illegal hill
    have hlen : data.length = (descLen desc).toNat := by
      by_contra hne
      cases (decode_dataPhaseLength he hr hle hne).symm.trans h
    refine .inr ?_
    by_cases hz : descLen desc = 0
    · obtain rfl : data = [] := by simpa [hz] using hlen
      cases (decode_chunkEmpty he hr hz).symm.trans h
      exact .inl ⟨rfl, hr, hz, rfl, rfl⟩
    · have hpos : 1 ≤ data.length := hlen ▸ descLen_pos hz
      have hmax : data.length ≤ mc := hlen ▸ hle
      cases (decode_chunk he hr hlen hpos hmax).symm.trans h
      exact .inr ⟨rfl, hr, hlen.symm, hpos, hmax, rfl⟩

/-- Every descriptor decodes, a legal one with any data phase of LEN bytes (30 R72). -/
theorem decode_total (mc : Nat) (desc : Word) : ∃ data i, decode mc (.transfer desc data) = .ok i := by
  cases he : descErr desc with
  | true => exact ⟨[], _, decode_chunkErr he⟩
  | false =>
    by_cases hill : descRsvd desc ≠ 0 ∨ mc < (descLen desc).toNat
    · exact ⟨[], _, decode_illegal he hill⟩
    obtain ⟨hr, hle⟩ := legal_of_not_illegal hill
    by_cases hz : descLen desc = 0
    · exact ⟨[], _, decode_chunkEmpty he hr hz⟩
    · have hlen : (List.replicate (descLen desc).toNat (0 : Byte)).length = (descLen desc).toNat :=
        List.length_replicate
      exact ⟨_, _, decode_chunk he hr hlen (hlen.symm ▸ descLen_pos hz) (hlen.symm ▸ hle)⟩

/-! ## A descriptor under the masks of the opcode map (30 R85) -/

/-- A descriptor is fixed by its three fields (30 R71). -/
theorem desc_eq_iff {v w : Word} :
    v = w ↔ descErr v = descErr w ∧ descRsvd v = descRsvd w ∧ descLen v = descLen w := by
  refine ⟨fun h => by simp [h], fun ⟨he, hr, hl⟩ => ?_⟩
  rw [← makeDesc_fields v, ← makeDesc_fields w, he, hr, hl]

@[simp] theorem descErr_and (v w : Word) : descErr (v &&& w) = (descErr v && descErr w) := BitVec.getLsbD_and

@[simp] theorem descRsvd_and (v w : Word) : descRsvd (v &&& w) = descRsvd v &&& descRsvd w :=
  BitVec.extractLsb'_and

@[simp] theorem descLen_and (v w : Word) : descLen (v &&& w) = descLen v &&& descLen w :=
  BitVec.extractLsb'_and

theorem desc_eq_zero_iff {w : Word} : w = 0#32 ↔ descErr w = false ∧ descRsvd w = 0 ∧ descLen w = 0 := by
  have hz : descErr 0#32 = false ∧ descRsvd 0#32 = 0#10 ∧ descLen 0#32 = 0#21 := by decide
  simp [desc_eq_iff (w := 0#32), hz]

/-- The mask of CHUNK_ERR and ILLEGAL is ERR alone. -/
theorem errMask_fields :
    descErr 0x80000000#32 = true ∧ descRsvd 0x80000000#32 = 0#10 ∧ descLen 0x80000000#32 = 0#21 := by decide

/-- Match and mask of CHUNK_ERR. -/
theorem errMask_eq_iff (desc : Word) : desc &&& 0x80000000#32 = 0x80000000#32 ↔ descErr desc = true := by
  simp [desc_eq_iff (w := 0x80000000#32), errMask_fields]

/-- Match and mask of ILLEGAL. -/
theorem errMask_eq_zero_iff (desc : Word) : desc &&& 0x80000000#32 = 0#32 ↔ descErr desc = false := by
  simp [desc_eq_zero_iff, errMask_fields]

/-- Match and mask of CHUNK: the mask is ERR and RSVD. -/
theorem fieldMask_eq_zero_iff (desc : Word) :
    desc &&& 0xFFE00000#32 = 0#32 ↔ descErr desc = false ∧ descRsvd desc = 0 := by
  have hmask : descErr 0xFFE00000#32 = true ∧ descRsvd 0xFFE00000#32 = 0x3FF#10
      ∧ descLen 0xFFE00000#32 = 0#21 := by decide
  have hrsvd : descRsvd desc &&& 0x3FF#10 = descRsvd desc := BitVec.and_allOnes
  simp [desc_eq_zero_iff, hmask, hrsvd]

/-- Match and mask of CHUNK_EMPTY: the mask is the whole word. -/
theorem wordMask_eq_zero_iff (desc : Word) :
    desc &&& 0xFFFFFFFF#32 = 0#32 ↔ descErr desc = false ∧ descRsvd desc = 0 ∧ descLen desc = 0 := by
  have hword : desc &&& 0xFFFFFFFF#32 = desc := BitVec.and_allOnes
  rw [hword, desc_eq_zero_iff]

end Sys2Proof

namespace Sys2Proof.Machine

open Sys2Proof.Safety

/-! ## The step on a transfer that decodes to nothing -/

/-- A core that holds no emission refuses, by the decoder's own reason, what does not decode (44 R181, log 6). -/
theorem step_of_decode_error {s : State} {ev : PortEvent} {rest : List PortEvent} {why : DecodeError}
    (hheld : s.held = none) (hin : s.input = ev :: rest) (hdec : decode s.maxChunk ev = .error why) :
    step s = .refused (.undecodable why) := by
  simp only [step, hheld, fetch, hin, hdec]

/-! ## LE32 of what has been written (20 R52) -/

/-- LE32 inside a write at the front of `BUF` is LE32 of the bytes written. -/
theorem le32_write_front (m : Memory) {f : List Byte} {o : Nat} (h : o + 4 ≤ f.length) :
    le32 (m.write 0 f) o = le32Of f o := by
  have hread : ∀ j, j < f.length → (m.write 0 f).read j = f.getD j 0x00#8 := fun j hj => by
    rw [read_write, if_pos ⟨Nat.zero_le j, by omega⟩, Nat.sub_zero]
  rw [le32, le32Of, hread o (by omega), hread (o + 1) (by omega), hread (o + 2) (by omega),
    hread (o + 3) (by omega)]

/-- The four bytes of a 32-bit value read back as that value. -/
theorem le32Of_le32Bytes (v : Word) : le32Of (le32Bytes v) 0 = v.toNat := by
  have hv := v.isLt
  show (v.extractLsb' 0 8).toNat + 2 ^ 8 * (v.extractLsb' 8 8).toNat + 2 ^ 16 * (v.extractLsb' 16 8).toNat
    + 2 ^ 24 * (v.extractLsb' 24 8).toNat = v.toNat
  simp only [BitVec.extractLsb'_toNat, Nat.shiftRight_eq_div_pow]
  omega

theorem headerBytes_length (fs ts js : Word) : (headerBytes fs ts js).length = 28 := rfl

/-- A frame begun by `HDR fs ts js` has its three sizes at their offsets (30 R77, R88). -/
theorem le32Of_headerBytes (fs ts js : Word) (payload : List Byte) :
    le32Of (headerBytes fs ts js ++ payload) Config.offFrameSize = fs.toNat
      ∧ le32Of (headerBytes fs ts js ++ payload) Config.offThermalSize = ts.toNat
      ∧ le32Of (headerBytes fs ts js ++ payload) Config.offJpgSize = js.toNat :=
  ⟨le32Of_le32Bytes fs, le32Of_le32Bytes ts, le32Of_le32Bytes js⟩

end Sys2Proof.Machine

/-! ## The statements -/

namespace Sys2Proof.Certificates

open Sys2Proof.Machine Sys2Proof.Safety

/-- Settles O2: the fields of an encoded instruction are its operands, so the decoder takes the row of 30 R72 that
made it; MAX_CHUNK ≤ C keeps LEN within its 21 bits. -/
theorem decodeInvertsEncode : Obligations.DecodeInvertsEncode := by
  intro mc i hmc hwf
  cases i with
  | chunkErr rsvd len => simpa [encode] using decode_chunkErr (mc := mc) (data := []) (descErr_makeDesc 1 rsvd len)
  | illegal rsvd len =>
    simpa [encode] using decode_illegal (mc := mc) (data := []) (descErr_makeDesc 0 rsvd len)
      (by simpa using wellFormed_illegal.1 hwf)
  | chunkEmpty => exact decode_chunkEmpty (descErr_makeDesc 0 0 0) (descRsvd_makeDesc 0 0 0) (descLen_makeDesc 0 0 0)
  | chunk data =>
    obtain ⟨hpos, hle⟩ := wellFormed_chunk.1 hwf
    have hlen : (BitVec.ofNat 21 data.length).toNat = data.length := ofNat21_toNat (hle.trans hmc)
    exact decode_chunk (descErr_makeDesc ..) (descRsvd_makeDesc ..) (by rw [descLen_makeDesc, hlen]) hpos hle
  | rst => exact decode_rst mc

/-- Settles O3: the decoded instruction keeps the descriptor's fields, and the fields are the descriptor
(`makeDesc_fields`). -/
theorem encodeInvertsDecode : Obligations.EncodeInvertsDecode := by
  intro mc desc data i h
  have hfields := makeDesc_fields desc
  rcases decode_cases h with ⟨he, rfl⟩ | ⟨he, hill, rfl⟩ | ⟨he, hr, hl, rfl, rfl⟩ | ⟨he, hr, hl, -, -, rfl⟩
  · rw [he] at hfields
    exact ⟨[], congrArg (PortEvent.transfer · []) hfields, by simp [he]⟩
  · rw [he] at hfields
    refine ⟨[], congrArg (PortEvent.transfer · []) hfields, fun _ hr hle => ?_⟩
    rcases hill with hill | hill
    · exact absurd hr hill
    · omega
  · rw [he, hr, hl] at hfields
    exact ⟨[], congrArg (PortEvent.transfer · []) hfields, fun _ _ _ => rfl⟩
  · have hlen : BitVec.ofNat 21 data.length = descLen desc := by rw [← hl, BitVec.ofNat_toNat, BitVec.setWidth_eq]
    rw [he, hr, ← hlen] at hfields
    exact ⟨data, congrArg (PortEvent.transfer · data) hfields, fun _ _ _ => rfl⟩

/-- Settles O5: each mask tests the fields its row names, and the four rows of the decoder exclude each other. -/
theorem opcodeMapMatches : Obligations.OpcodeMapMatches := by
  intro mc desc data i h
  rw [errMask_eq_iff, errMask_eq_zero_iff, wordMask_eq_zero_iff, fieldMask_eq_zero_iff]
  change (_ ↔ _) ∧ (_ ↔ _ ∧ (descRsvd desc ≠ 0 ∨ mc < (descLen desc).toNat)) ∧ (_ ↔ _)
    ∧ (_ ↔ _ ∧ 1 ≤ (descLen desc).toNat ∧ (descLen desc).toNat ≤ mc) ∧ _
  rcases decode_cases h with ⟨he, rfl⟩ | ⟨he, hill, rfl⟩ | ⟨he, hr, hl, -, rfl⟩ | ⟨he, hr, hl, hpos, hmax, rfl⟩
  · simp [mnemonic, he]
  · have hchunk : descRsvd desc = 0 → 1 ≤ (descLen desc).toNat → mc < (descLen desc).toNat :=
      fun hr _ => hill.resolve_left fun hne => hne hr
    have hempty : descRsvd desc = 0 → descLen desc ≠ 0 := fun hr hl => by simp [hr, hl] at hill
    simpa [mnemonic, he] using ⟨hill, hempty, hchunk⟩
  · simp [mnemonic, he, hr, hl]
  · rw [← hl] at hpos hmax
    have hz : descLen desc ≠ 0 := fun h => by simp [h] at hpos
    simpa [mnemonic, he, hr, hpos, hmax] using hz

/-- Settles O6: each row of the decoder has tested what its transaction's operands must meet. -/
theorem decodedIsWellFormed : Obligations.DecodedIsWellFormed := by
  intro mc ev i h
  cases ev with
  | rst => cases h; rfl
  | transfer desc data =>
    rcases decode_cases h with ⟨-, rfl⟩ | ⟨-, hill, rfl⟩ | ⟨-, -, -, -, rfl⟩ | ⟨-, -, -, hpos, hmax, rfl⟩
    · rfl
    · exact wellFormed_illegal.2 hill
    · rfl
    · exact wellFormed_chunk.2 ⟨hpos, hmax⟩

/-- Settles O7: the header's fields lie in the bytes written, so they read back as the values `HDR` was given. -/
theorem headerPseudoParses : Obligations.HeaderPseudoParses := by
  intro fs ts js payload m
  obtain ⟨hfs, hts, hjs⟩ := le32Of_headerBytes fs ts js payload
  have hlen : 28 ≤ (headerBytes fs ts js ++ payload).length := by simp [headerBytes_length]
  have hread : ∀ o, o + 4 ≤ 28 → le32 (m.write 0 (headerBytes fs ts js ++ payload)) o
      = le32Of (headerBytes fs ts js ++ payload) o := fun o ho => le32_write_front m (ho.trans hlen)
  refine ⟨headerBytes_length fs ts js, rfl, ?_⟩
  rw [readHeader, hread _ (by decide), hread _ (by decide), hread _ (by decide), hfs, hts, hjs]

/-- Settles O1, by computation; the chunk of 4096 bytes, whatever they are, by order 4 of 30 R72. -/
theorem sampleDescriptorsDecode : Obligations.SampleDescriptorsDecode := by
  refine ⟨by decide, by decide, by decide, by decide, by decide, by decide, by decide, fun data hdata => ?_, rfl⟩
  have hlen : (descLen 0x00001000#32).toNat = 4096 := by decide
  exact decode_chunk (by decide) (by decide) (hdata.trans hlen.symm) (by omega) (by omega)

/-- Settles O4: the four orders are the decoder's four rows; the data phase that makes a legal descriptor decode is
any one of LEN bytes. -/
theorem decodeFollowsOrder : Obligations.DecodeFollowsOrder := by
  intro mc desc
  refine ⟨fun _ he => decode_chunkErr he, fun _ he hill => decode_illegal he hill,
    fun he hr hl => decode_chunkEmpty he hr hl,
    fun data he hr hpos hle hlen => decode_chunk he hr hlen (hlen ▸ hpos) (hlen ▸ hle),
    decode_total mc desc⟩

/-- Settles O10: such a transfer does not decode, and the step refuses it with the decoder's reason. -/
theorem dataPhaseMismatchRefused : Obligations.DataPhaseMismatchRefused := by
  intro s desc data rest hheld hin he hr hle hne
  exact step_of_decode_error hheld hin (decode_dataPhaseLength he hr hle hne)

end Sys2Proof.Certificates
end

section
/-! PROOFS. The append (40_accumulation.md): O21, O22, O23, O24, O36, O38. -/
namespace Sys2Proof.Machine

open Sys2Proof.Safety

/-! ## The tests (40 R102-R104) -/

/-- Test `M` asks that the marker is a prefix of the chunk (40 R102). -/
theorem markerTest_iff_prefix (data : List Byte) : markerTest data = true ↔ Config.marker <+: data := by
  simp only [markerTest, Bool.and_eq_true, decide_eq_true_eq, beq_iff_eq]
  constructor
  · rintro ⟨-, h⟩
    exact List.prefix_iff_eq_take.2 h.symm
  · intro h
    exact ⟨h.length_le, (List.prefix_iff_eq_take.1 h).symm⟩

theorem markerTest_length {data : List Byte} (hm : markerTest data = true) : 4 ≤ data.length :=
  ((markerTest_iff_prefix data).1 hm).length_le

/-- The copy starts at 0 where `M` or `O` holds, else at the cursor (40 R105). -/
theorem appendBase_eq (d : FrameDecoder) (data : List Byte) :
    appendBase d data = if markerTest data = true ∨ overflowTest d data = true then 0 else d.len.toNat := by
  simp [appendBase]

/-- Of a chunk of 4 bytes or more that is copied to index 0, the front test repeats test `M`: it sees the chunk's own
first 4 bytes (40 R105 corners 3 and 7). -/
theorem frontTest_copyChunk_of_base_zero {d : FrameDecoder} {data : List Byte} (h4 : 4 ≤ data.length)
    (hlen : data.length ≤ Config.capacity) (hbase : appendBase d data = 0) :
    frontTest (copyChunk data d) = markerTest data := by
  rw [Bool.eq_iff_iff, markerTest_iff_prefix]
  constructor
  · intro hf
    rw [List.prefix_iff_getElem?]
    intro i hi
    have hi : i < 4 := hi
    have := (frontTest_iff _).1 hf i (by rw [copyChunk_len_toNat d hlen]; omega)
    rw [copyChunk_buf, hbase, read_write, if_pos (by omega)] at this
    simpa [show i < data.length by omega, hi] using this
  · intro hm
    exact frontTest_copyChunk_of_markerTest d hlen ((markerTest_iff_prefix data).2 hm)

/-! ## The append as its two results (40 R105) -/

theorem appendChunk_cases (data : List Byte) (d : FrameDecoder) :
    (frontTest (copyChunk data d) = true ∧ appendChunk data d = (copyChunk data d, .kept))
      ∨ (frontTest (copyChunk data d) = false
          ∧ appendChunk data d = (resetCursor (raiseEvent .resync (copyChunk data d)), .resynced)) := by
  cases h : frontTest (copyChunk data d) <;> simp [appendChunk, h]

theorem appendChunk_buf (data : List Byte) (d : FrameDecoder) :
    (appendChunk data d).1.buf = d.buf.write (appendBase d data) data := by
  rcases appendChunk_cases data d with ⟨-, hr⟩ | ⟨-, hr⟩ <;> simp [hr]

theorem appendChunk_frameCount (data : List Byte) (d : FrameDecoder) :
    (appendChunk data d).1.frameCount = d.frameCount := by
  rcases appendChunk_cases data d with ⟨-, hr⟩ | ⟨-, hr⟩ <;> simp [hr]

/-- The append adds the events its tests and its result call for, and no other (40 R105). -/
theorem raised_appendChunk (data : List Byte) (d : FrameDecoder) (e : Event) :
    raised e (appendChunk data d).1.evt = (raised e d.evt || (markerTest data && decide (e = .resetMarker))
      || (overflowTest d data && decide (e = .resetOverflow))
      || (decide ((appendChunk data d).2 = .resynced) && decide (e = .resync))) := by
  rcases appendChunk_cases data d with ⟨-, hr⟩ | ⟨-, hr⟩ <;> simp [hr, raised_raise, raised_raiseIf]

/-! ## CHUNK where it emits nothing, and where it resyncs -/

/-- The events of the copy in a transaction, as bits (44 R183, 60 R210). -/
theorem copyChunk_clearEvents_evt (data : List Byte) (d : FrameDecoder) :
    (copyChunk data (clearEvents d)).evt
      = (if markerTest data then 0x0008#16 else 0#16) ||| (if overflowTest d data then 0x0010#16 else 0#16) := by
  rw [copyChunk_evt, overflowTest_clearEvents, clearEvents_evt]
  cases markerTest data <;> cases overflowTest d data <;> rfl

/-- CHUNK without emissions ends in its own step, in a core that holds none (44 R192). -/
theorem exec_chunk_of_no_emission {data : List Byte} {s : State} {after : FrameDecoder} (hpos : 1 ≤ data.length)
    (hmax : data.length ≤ s.maxChunk) (hcap : s.maxChunk ≤ Config.capacity) (hheld : s.held = none)
    (hr : chunkResult data s.dec = (after, [])) : exec (.chunk data) s = .next { s with dec := after } := by
  have hexec : exec (.chunk data) s = execChunk data s := rfl
  rw [hexec, execChunk_eq hpos hmax hcap, hr, settle_nil, ← hheld]

/-- CHUNK whose front test fails after the copy (44 R187, R191). -/
theorem exec_chunk_of_frontTest_false {data : List Byte} {s : State} (hpos : 1 ≤ data.length)
    (hmax : data.length ≤ s.maxChunk) (hcap : s.maxChunk ≤ Config.capacity) (hheld : s.held = none)
    (hfront : frontTest (copyChunk data (clearEvents s.dec)) = false) :
    exec (.chunk data) s = .next { s with dec :=
      { buf := s.dec.buf.write (appendBase s.dec data) data, len := 0#21, frameCount := s.dec.frameCount
        evt := (if markerTest data then 0x0008#16 else 0#16)
          ||| (if overflowTest s.dec data then 0x0010#16 else 0#16) ||| 0x0020#16 } } := by
  refine exec_chunk_of_no_emission hpos hmax hcap hheld ?_
  rw [chunkResult_eq, ← copyChunk_clearEvents_evt]
  simp only [hfront, if_true]
  rfl

/-- Noise of 4 bytes or more that is copied to index 0 is dropped (40 R105 corners 4 and 7). -/
theorem exec_chunk_of_noise_at_zero {data : List Byte} {s : State} (h4 : 4 ≤ data.length)
    (hmax : data.length ≤ s.maxChunk) (hcap : s.maxChunk ≤ Config.capacity) (hheld : s.held = none)
    (hm : markerTest data = false) (hbase : appendBase s.dec data = 0) :
    exec (.chunk data) s = .next { s with dec :=
      { buf := s.dec.buf.write 0 data, len := 0#21, frameCount := s.dec.frameCount
        evt := (if overflowTest s.dec data then 0x0010#16 else 0#16) ||| 0x0020#16 } } := by
  have hfront : frontTest (copyChunk data (clearEvents s.dec)) = false :=
    (frontTest_copyChunk_of_base_zero h4 (hmax.trans hcap) hbase).trans hm
  rw [exec_chunk_of_frontTest_false (by omega) hmax hcap hheld hfront, hbase, hm]
  simp

/-! ## A chunk that begins with the marker -/

/-- Ended or held, a transaction leaves the core's state it was to leave (44 R192). -/
theorem settle_leaves_after (after : FrameDecoder) (frames : List Emission) (s : State) :
    ((settle after frames s).held = none → (settle after frames s).dec = after)
      ∧ ∀ h, (settle after frames s).held = some h → h.after = after := by
  obtain ⟨-, rest, -, -, -, -, hend⟩ := settle_cases after frames s
  rcases hend with ⟨-, hdec, hnone⟩ | ⟨-, -, hsome⟩
  · simp [hdec, hnone]
  · simp [hsome, eq_comm]

/-- A chunk that begins with the marker raises RESET_MARKER and never RESYNC, however it ends (40 R105 corner 3, 60 R213
point 3). -/
theorem raised_chunkResult_of_markerTest {data : List Byte} (d : FrameDecoder) (hlen : data.length ≤ Config.capacity)
    (hm : markerTest data = true) :
    raised .resync (chunkResult data d).1.evt = false ∧ raised .resetMarker (chunkResult data d).1.evt = true := by
  have hfront := frontTest_copyChunk_of_markerTest (clearEvents d) hlen hm
  rcases chunkResult_cases data d with ⟨hf, -⟩ | ⟨-, -, hr⟩ | ⟨-, -, -, hr⟩ | ⟨-, -, -, hr⟩
  · rw [hfront] at hf
    cases hf
  all_goals
    rw [hr]
    simpa [completionEvents, raised_raise, raised_raiseIf, hm] using raised_zero .resync

/-- Its own bytes stand at the front of `BUF` (40 R105). -/
theorem read_chunkResult_of_markerTest {data : List Byte} (d : FrameDecoder) (hm : markerTest data = true) {k : Nat}
    (hk : k < data.length) : (chunkResult data d).1.buf.read k = data.getD k 0#8 := by
  rw [chunkResult_buf, appendBase_of_markerTest d hm, read_write, if_pos (by omega), Nat.sub_zero]

end Sys2Proof.Machine

/-! ## The statements -/

namespace Sys2Proof.Certificates

open Sys2Proof.Machine Sys2Proof.Safety

/-- Settles O21: a chunk has the marker as a prefix where each of its first 4 bytes is there and is the marker's. -/
theorem markerTestMatchesRule : Obligations.MarkerTestMatchesRule := by
  intro d
  rw [markerTest_iff_prefix]
  constructor
  · rintro ⟨rest, rfl⟩
    simp
  · rintro ⟨-, h0, h1, h2, h3⟩
    rw [List.prefix_iff_getElem?]
    intro i hi
    have hi : i < 4 := hi
    interval_cases i
    exacts [h0, h1, h2, h3]

/-- Settles O22: the test is this comparison of natural numbers. -/
theorem overflowTestMatchesRule : Obligations.OverflowTestMatchesRule :=
  fun _ _ => decide_eq_true_iff

/-- Settles O23: the append writes its copy (`appendChunk_buf`), and its two results are those of the front test on
the bytes the copy leaves. -/
theorem appendMatchesRule : Obligations.AppendMatchesRule := by
  intro data d _ hlen
  simp only [← appendBase_eq, appendChunk_buf]
  refine ⟨appendBase_fits d hlen, read_write d.buf _ data, appendChunk_frameCount data d, ?_,
    raised_appendChunk data d⟩
  have hfront := frontTest_copyChunk d hlen
  rcases appendChunk_cases data d with ⟨hf, hr⟩ | ⟨hf, hr⟩
  · rw [if_pos (hfront.1 hf), hr]
    exact ⟨rfl, copyChunk_len_toNat d hlen⟩
  · rw [if_neg (mt hfront.2 (Bool.eq_false_iff.1 hf)), hr]
    exact ⟨rfl, rfl⟩

/-- Settles O24: a byte that is not the marker's fails the front test, and the CHUNK rule ends with RESYNC. -/
theorem chunkResyncs : Obligations.ChunkResyncs := by
  intro data s hpos hmax hcap hheld b n hbad
  obtain ⟨i, hi, hne⟩ := hbad
  refine exec_chunk_of_frontTest_false hpos hmax hcap hheld (Bool.eq_false_iff.2 fun hf => hne ?_)
  exact (frontTest_copyChunk s.dec (hmax.trans hcap)).1 hf i hi

/-- Settles O36: such a chunk passes its front test, and what CHUNK leaves is the same whether it ends or is held. -/
theorem markerChunkNeverResyncs : Obligations.MarkerChunkNeverResyncs := by
  intro data s hm hmax hcap _
  have h4 := markerTest_length hm
  obtain ⟨hresync, hreset⟩ := raised_chunkResult_of_markerTest s.dec (hmax.trans hcap) hm
  obtain ⟨hended, hheld⟩ := settle_leaves_after (chunkResult data s.dec).1 (chunkResult data s.dec).2 s
  refine ⟨_, execChunk_eq (by omega) hmax hcap, fun hnone => ?_, fun h hsome => ?_⟩
  · rw [hended hnone]
    exact ⟨hresync, hreset, fun k => read_chunkResult_of_markerTest s.dec hm⟩
  · rw [hheld h hsome]
    exact ⟨hresync, hreset, fun k => read_chunkResult_of_markerTest s.dec hm⟩

/-- Settles O38: without the marker in front and without an overflow the copy starts at the cursor, which is 0. -/
theorem noiseIntoEmptyIsDropped : Obligations.NoiseIntoEmptyIsDropped := by
  intro data s h4 hmax hcap hheld hlen hm hshort
  have ho : overflowTest s.dec data = false := by
    rw [overflowTest, hlen, decide_eq_false_iff_not]
    simpa using hshort
  have hbase : appendBase s.dec data = 0 := by simp [appendBase_eq, hm, ho, hlen]
  rw [exec_chunk_of_noise_at_zero h4 hmax hcap hheld hm hbase, ho]
  rfl

end Sys2Proof.Certificates
end

section
/-! PROOFS. The header and the completion gate (41_header_gate.md): O39, O40, O41. -/
namespace Sys2Proof.Machine

/-! ## LE32 and the header read no byte outside their fields (20 R52, 41 R121) -/

/-- LE32 as the four byte values with their weights written out (30 R77). -/
theorem le32_eq (m : Memory) (a : Nat) :
    le32 m a = (m.read a).toNat + 256 * (m.read (a + 1)).toNat + 65536 * (m.read (a + 2)).toNat
      + 16777216 * (m.read (a + 3)).toNat := rfl

theorem le32_congr {m m' : Memory} {a : Nat} (h : ∀ i, a ≤ i → i < a + 4 → m.read i = m'.read i) :
    le32 m a = le32 m' a := by
  rw [le32, le32, h a (by omega) (by omega), h (a + 1) (by omega) (by omega), h (a + 2) (by omega) (by omega),
    h (a + 3) (by omega) (by omega)]

/-- The three fields tile bytes 8 to 19 (41 R122). -/
theorem readHeader_congr {m m' : Memory} (h : ∀ a, 8 ≤ a → a < 20 → m.read a = m'.read a) :
    readHeader m = readHeader m' := by
  have field (o : Nat) (h8 : 8 ≤ o) (h16 : o ≤ 16) : le32 m o = le32 m' o :=
    le32_congr fun i _ _ => h i (by omega) (by omega)
  rw [readHeader, readHeader, field Config.offFrameSize (by decide) (by decide),
    field Config.offThermalSize (by decide) (by decide), field Config.offJpgSize (by decide) (by decide)]

/-! ## The two tests on `len` (41 R120, R124) -/

theorem tryParse_of_lt {d : FrameDecoder} (h : d.len.toNat < 28) : tryParse d = none := by
  rw [tryParse_eq, if_pos h]

theorem tryParse_of_le {d : FrameDecoder} (h : 28 ≤ d.len.toNat) : tryParse d = some (readHeader d.buf) := by
  rw [tryParse_eq, if_neg h.not_gt]

theorem isComplete_iff (fs len : Nat) : isComplete fs len = true ↔ fs + 28 ≤ len := decide_eq_true_iff

end Sys2Proof.Machine

/-! ## The statements -/

namespace Sys2Proof.Certificates

open Sys2Proof.Machine

/-- Settles O39: the header found is `readHeader`'s, whose fields are LE32 values, each below 2^32 (`le32_lt`). -/
theorem tryParseMatchesRule : Obligations.TryParseMatchesRule := fun d =>
  ⟨tryParse_of_lt, fun h =>
    ⟨readHeader d.buf, tryParse_of_le h, le32_eq d.buf 8, le32_eq d.buf 12, le32_eq d.buf 16,
      le32_lt d.buf 8, le32_lt d.buf 12, le32_lt d.buf 16⟩⟩

/-- Settles O40: the length test does not look at `BUF`, and the header's fields lie in bytes 8 to 19. -/
theorem unusedHeaderBytesIgnored : Obligations.UnusedHeaderBytesIgnored := by
  intro d m h
  rw [tryParse_eq, tryParse_eq, readHeader_congr h]

/-- Settles O41: the gate is this comparison of natural numbers, so a complete frame fits in the buffer with its
28 header bytes. -/
theorem completionTestIsExact : Obligations.CompletionTestIsExact := by
  refine ⟨isComplete_iff, fun d hlen hfs => Bool.eq_false_iff.2 fun hc => ?_⟩
  have hfit := (isComplete_iff _ _).1 hc
  omega

end Sys2Proof.Certificates
end

section
/-! PROOFS. The ThermalFrame byte by byte and its samples (42_thermal.md): O42, O43, O45. -/
namespace Sys2Proof.Machine

/-! ## The bytes of the ThermalFrame -/

/-- Pieces of `n` elements each, one after the other: place `n·i + j` holds element `j` of piece `i`. -/
theorem getElem?_flatMap_of_length {α β : Type} {f : α → List β} {n j : Nat} (hj : j < n) :
    ∀ {l : List α} {i : Nat} (_ : ∀ a ∈ l, (f a).length = n) (hi : i < l.length),
      (l.flatMap f)[n * i + j]? = (f l[i])[j]?
  | [], _, _, hi => absurd hi (Nat.not_lt_zero _)
  | a :: l, 0, hlen, _ => by
    have ha : (f a).length = n := hlen a List.mem_cons_self
    rw [List.flatMap_cons, List.getElem?_append_left (by omega), Nat.mul_zero, Nat.zero_add, List.getElem_cons_zero]
  | a :: l, i + 1, hlen, hi => by
    have ha : (f a).length = n := hlen a List.mem_cons_self
    rw [List.flatMap_cons, List.getElem?_append_right (by rw [Nat.mul_succ]; omega), List.getElem_cons_succ,
      show n * (i + 1) + j - (f a).length = n * i + j by rw [Nat.mul_succ]; omega]
    exact getElem?_flatMap_of_length hj (fun b hb => hlen b (List.mem_cons_of_mem a hb)) (Nat.lt_of_succ_lt_succ hi)

theorem thermalRow_length (m : Memory) (y : Nat) : (thermalRow m y).length = 160 := by
  simp [thermalRow, sampleBytes, List.length_flatMap, Config.columns]

/-- Row `y` of the ThermalFrame is the run of 160 bytes from `BUF[60 + 164·y]` on: byte `j` belongs to sample `j / 2`. -/
theorem thermalRow_getElem? (m : Memory) {y j : Nat} (hy : y < 60) (hj : j < 160) :
    (thermalRow m y)[j]? = some (m.read (60 + 164 * y + j)) := by
  have hx : j / 2 < 80 := by omega
  have hb : j % 2 < 2 := Nat.mod_lt j Nat.two_pos
  have hrow : (thermalRow m y)[2 * (j / 2) + j % 2]? = (sampleBytes (thermalSample m (j / 2) y))[j % 2]? := by
    rw [thermalRow, getElem?_flatMap_of_length hb (fun _ _ => rfl) (by simpa using hx), List.getElem_range]
  rw [Nat.div_add_mod, sampleBytes_thermalSample m hx hy] at hrow
  rw [hrow]
  obtain h | h := Nat.mod_two_eq_zero_or_one j
  · rw [h, List.getElem?_cons_zero, show 2 * (j / 2) = j by omega]
  · rw [h, List.getElem?_cons_succ, List.getElem?_cons_zero, show 2 * (j / 2) + 1 = j by omega]

/-- The rows of the ThermalFrame stand one after the other (42 R148). -/
theorem thermalFrame_getElem? (m : Memory) {y j : Nat} (hy : y < 60) (hj : j < 160) :
    (thermalFrame m)[160 * y + j]? = some (m.read (60 + 164 * y + j)) := by
  rw [thermalFrame, getElem?_flatMap_of_length hj (fun y _ => thermalRow_length m y) (by simpa using hy),
    List.getElem_range, thermalRow_getElem? m hy hj]

/-! ## The value of a sample -/

/-- The sample at (x, y) is the little-endian value at its address; the bounds check passes (42 R141-R143). -/
theorem thermalSample_toNat (m : Memory) {x y : Nat} (hx : x < 80) (hy : y < 60) :
    (thermalSample m x y).toNat
      = (m.read (60 + 164 * y + 2 * x)).toNat + 256 * (m.read (60 + 164 * y + 2 * x + 1)).toNat := by
  rw [thermalSample, if_pos (sample_in_bounds hx hy), le16_toNat, thermalAddr_eq]

/-- Over the synthetic payload a sample is the LE16 value of the payload bytes at `p(x, y)` and the next (42 R141, R151). -/
theorem thermalSample_of_syntheticPayload {m : Memory}
    (hpay : ∀ p, p < 9868 → m.read (28 + p) = BitVec.ofNat 8 (7 * p + 3)) {x y : Nat} (hx : x < 80) (hy : y < 60) :
    thermalSample m x y
      = BitVec.ofNat 16 ((7 * thermalOffset x y + 3) % 256 + 256 * ((7 * (thermalOffset x y + 1) + 3) % 256)) := by
  have haddr : 60 + 164 * y + 2 * x = 28 + thermalOffset x y := (thermalAddr_eq x y).symm
  apply BitVec.eq_of_toNat_eq
  rw [thermalSample_toNat m hx hy, haddr, Nat.add_assoc 28, hpay _ (by omega), hpay _ (by omega)]
  simp only [BitVec.toNat_ofNat]
  omega

end Sys2Proof.Machine

/-! ## The statements -/

namespace Sys2Proof.Certificates

open Sys2Proof.Machine

/-- Settles O42: 60 rows of 160 bytes, each a run of `BUF` (`thermalFrame_getElem?`). -/
theorem thermalFrameIsWindowCopy : Obligations.ThermalFrameIsWindowCopy := fun m =>
  ⟨frameShape_thermal m, fun _ _ => thermalFrame_getElem? m⟩

/-- Settles O43: the two bytes are those of row `y` at `2·x` and `2·x + 1`, which the sample is read from. -/
theorem thermalSampleBytes : Obligations.ThermalSampleBytes := by
  intro m x y hx hy
  have hindex : 2 * (80 * y + x) = 160 * y + 2 * x := by omega
  refine ⟨_, _, ?_, ?_, thermalSample_toNat m hx hy, thermalSample_toNat m hx hy⟩ <;> rw [hindex]
  · exact thermalFrame_getElem? m hy (j := 2 * x) (by omega)
  · exact thermalFrame_getElem? m hy (j := 2 * x + 1) (by omega)

/-- Settles O45: the five samples from the payload's formula at their offsets. -/
theorem syntheticPayloadSamples : Obligations.SyntheticPayloadSamples := by
  intro m hpay
  have sample {x y : Nat} (hx : x < 80) (hy : y < 60) := thermalSample_of_syntheticPayload hpay hx hy
  exact ⟨sample (by decide) (by decide), sample (by decide) (by decide), sample (by decide) (by decide),
    sample (by decide) (by decide), sample (by decide) (by decide)⟩

end Sys2Proof.Certificates
end

section
/-! PROOFS. The VisibleFrame, its start-of-image warning and the slice's bounds (43_visible.md): O46, O47, O48. -/
namespace Sys2Proof.Machine

/-! ## The bytes of the VisibleFrame (43 R162, R165) -/

theorem visibleFrame_length (m : Memory) (base n : Nat) : (visibleFrame m base n).length = n + 128 := by
  rw [visibleFrame, List.length_append, jpegSlice_length, List.length_replicate]

theorem visibleFrame_getElem?_of_lt (m : Memory) (base : Nat) {n i : Nat} (hi : i < n) :
    (visibleFrame m base n)[i]? = (jpegSlice m base n)[i]? :=
  List.getElem?_append_left (by rwa [jpegSlice_length])

/-- Past the slice stands the padding, whatever `BUF` holds (43 R165). -/
theorem visibleFrame_getElem?_pad (m : Memory) (base n : Nat) {i : Nat} (hi : i < 128) :
    (visibleFrame m base n)[n + i]? = some 0x00#8 := by
  rw [visibleFrame, List.getElem?_append_right (by rw [jpegSlice_length]; omega), jpegSlice_length,
    Nat.add_sub_cancel_left, List.getElem?_replicate_of_lt hi]

/-! ## The start-of-image test (43 R163, R164) -/

theorem soiMissing_eq_false_iff_prefix (slice : List Byte) : soiMissing slice = false ↔ Config.soi <+: slice := by
  rw [soiMissing, Bool.not_eq_false', Bool.and_eq_true, decide_eq_true_eq, beq_iff_eq]
  constructor
  · rintro ⟨-, htake⟩
    exact List.prefix_iff_eq_take.2 htake.symm
  · intro h
    exact ⟨h.length_le, (List.prefix_iff_eq_take.1 h).symm⟩

/-- The two bytes of SOI, each at its place. -/
theorem soi_prefix_iff (slice : List Byte) :
    Config.soi <+: slice ↔ slice[0]? = some 0xFF#8 ∧ slice[1]? = some 0xD8#8 := by
  rw [List.prefix_iff_getElem?]
  constructor
  · intro h
    exact ⟨h 0 (by decide), h 1 (by decide)⟩
  · rintro ⟨h0, h1⟩ (_ | _ | i) hi
    · exact h0
    · exact h1
    · exact absurd hi (by simp)

end Sys2Proof.Machine

/-! ## The statements -/

namespace Sys2Proof.Certificates

open Sys2Proof.Machine

/-- Settles O46: the slice byte by byte (`jpegSlice_getElem`), then the padding. -/
theorem visibleFrameBytes : Obligations.VisibleFrameBytes := by
  intro m ts js
  refine ⟨visibleFrame_length m _ js, fun i hi => ?_, fun i => visibleFrame_getElem?_pad m _ js⟩
  have hlen : i < (jpegSlice m (28 + ts) js).length := by rwa [jpegSlice_length]
  rw [visibleFrame_getElem?_of_lt m _ hi, List.getElem?_eq_getElem hlen, jpegSlice_getElem]
  simp only [Config.capacity, Nat.lt_succ_iff (n := 1048575)]

/-- Settles O47: SOI is a prefix of the slice, which has `js` bytes and stands at the front of the VisibleFrame. -/
theorem soiWarningMatchesRule : Obligations.SoiWarningMatchesRule := by
  intro m ts js
  rw [soiMissing_eq_false_iff_prefix]
  constructor
  · intro h
    have hjs : 2 ≤ js := by simpa [jpegSlice_length] using h.length_le
    rw [visibleFrame_getElem?_of_lt m _ (by omega), visibleFrame_getElem?_of_lt m _ (by omega)]
    exact ⟨hjs, (soi_prefix_iff _).1 h⟩
  · rintro ⟨hjs, h⟩
    rw [visibleFrame_getElem?_of_lt m _ (by omega), visibleFrame_getElem?_of_lt m _ (by omega)] at h
    exact (soi_prefix_iff _).2 h

/-- Settles O48: `28 + ts + i` is below `28 + fs`, so below `len` and the capacity; a skip needs an index that is not
(`visibleSkips_iff`). -/
theorem consistentHeaderStaysInFrame : Obligations.ConsistentHeaderStaysInFrame := by
  intro fs ts js len hc hlen hfit
  have hgate := (isComplete_iff fs len).1 hc
  have inside : ∀ i, i < js → visibleBase ts + i < len := fun i hi =>
    Nat.lt_of_lt_of_le (show 28 + ts + i < fs + 28 by omega) hgate
  refine ⟨Bool.eq_false_iff.2 fun hskip => ?_, inside⟩
  obtain ⟨i, hi, hcap⟩ := (visibleSkips_iff _ _).1 hskip
  exact absurd (inside i hi) (Nat.not_lt.2 (hlen.trans hcap))

end Sys2Proof.Certificates
end

section
/-! PROOFS. The step, the transactions and the streams of frames (44_frame_decoder.md): O8, O11, O16 to O20, O25 to O30,
O32, O33, O35, O37, O50 to O52. -/
namespace Sys2Proof.Machine

open Sys2Proof.Safety

/-! ## The step, branch by branch (44 R181, R182, R192) -/

theorem step_of_held {s : State} {h : Held} (hheld : s.held = some h) :
    step s = .next (settle h.after h.pending s) := by
  simp only [step, hheld, resumeHeld]

theorem step_of_idle {s : State} (hheld : s.held = none) (hin : s.input = []) : step s = .next s := by
  simp only [step, hheld, fetch, hin]

theorem step_of_decode {s : State} {ev : PortEvent} {rest : List PortEvent} {i : Instr} (hheld : s.held = none)
    (hin : s.input = ev :: rest) (hdec : decode s.maxChunk ev = .ok i) :
    step s = exec i { s with input := rest } := by
  simp only [step, hheld, fetch, hin, hdec]

/-- An instruction that the port can carry has an outcome: nothing faults and nothing is refused (44 R198). -/
theorem exec_of_wellFormed {i : Instr} {s : State} (hcap : s.maxChunk ≤ Config.capacity)
    (hwf : WellFormed s.maxChunk i) : ∃ t, exec i s = .next t := by
  cases i with
  | chunk data =>
    obtain ⟨hpos, hmax⟩ := wellFormed_chunk.1 hwf
    exact ⟨_, execChunk_eq hpos hmax hcap⟩
  | chunkErr | illegal | chunkEmpty | rst => exact ⟨_, rfl⟩

/-- A step answers a next state unless the transfer at the port's head breaks the port's contract (30 R70, log 6). -/
theorem step_answers {s : State} (hcap : s.maxChunk ≤ Config.capacity) :
    (∃ t, step s = .next t) ∨ step s = .refused (.undecodable .dataPhaseLength) := by
  cases hheld : s.held with
  | some h => exact .inl ⟨_, step_of_held hheld⟩
  | none =>
    cases hin : s.input with
    | nil => exact .inl ⟨_, step_of_idle hheld hin⟩
    | cons ev rest =>
      cases hdec : decode s.maxChunk ev with
      | error why =>
        cases why
        exact .inr (step_of_decode_error hheld hin hdec)
      | ok i =>
        rw [step_of_decode hheld hin hdec]
        exact .inl (exec_of_wellFormed hcap (Certificates.decodedIsWellFormed _ _ _ hdec))

/-! ## Runs -/

theorem runSteps_succ {s t : State} (h : step s = .next t) (k : Nat) : runSteps (k + 1) s = runSteps k t := by
  have hcore : Sys2Proof.core.step s = .next t := h
  simp only [runSteps, Host.Core.run, hcore]
  rfl

theorem runSteps_succ_of_refused {s : State} {r : Refusal} (h : step s = .refused r) (k : Nat) :
    runSteps (k + 1) s = .refused r := by
  have hcore : Sys2Proof.core.step s = .refused r := h
  simp only [runSteps, Host.Core.run, hcore]
  rfl

/-- A run that answers a state has taken its first step. -/
theorem runSteps_succ_next {s u : State} {k : Nat} (h : runSteps (k + 1) s = .next u) :
    ∃ t, step s = .next t ∧ runSteps k t = .next u := by
  simp only [runSteps, Host.Core.run] at h
  split at h
  case h_1 t hstep => exact ⟨t, hstep, h⟩
  all_goals cases h

/-- A run of `k + j` steps is a run of `k` steps and then one of `j`. -/
theorem runSteps_add {s u : State} {k : Nat} (h : runSteps k s = .next u) (j : Nat) :
    runSteps (k + j) s = runSteps j u := by
  induction k generalizing s with
  | zero =>
    cases h
    rw [Nat.zero_add]
  | succ k ih =>
    obtain ⟨t, hstep, hrun⟩ := runSteps_succ_next h
    rw [Nat.succ_add, runSteps_succ hstep]
    exact ih hrun

/-! ## The hold (44 R192, 20 R66) -/

/-- A core that holds `e :: rest`, and whose sink refuses `e`, has spent that sink's answer and nothing else. -/
theorem settle_pending_refused {s : State} {h : Held} {e : Emission} {rest : List Emission}
    (hheld : s.held = some h) (hpend : h.pending = e :: rest) (href : sinkAccepts e s = false) :
    settle h.after h.pending s = sinkAnswered e s := by
  have hkeep : some { after := h.after, pending := h.pending } = (sinkAnswered e s).held := by
    rw [sinkAnswered_held, hheld]
  rw [hpend, settle_refused _ _ _ href, ← hpend, hkeep]

/-! ## The hand-over, sink by sink (30 R82, 44 R192) -/

theorem settle_thermal_accepted (after : FrameDecoder) (T : List Byte) (rest : List Emission) {s : State}
    (h : s.thermalSink.accepts = true) :
    settle after (.thermal T :: rest) s = settle after rest { s with
      thermalSink := s.thermalSink.answered, emitted := s.emitted ++ [.thermal T] } :=
  settle_accepted after (.thermal T) rest h

theorem settle_thermal_refused (after : FrameDecoder) (T : List Byte) (rest : List Emission) {s : State}
    (h : s.thermalSink.accepts = false) :
    settle after (.thermal T :: rest) s = { s with
      thermalSink := s.thermalSink.answered, held := some { after := after, pending := .thermal T :: rest } } :=
  settle_refused after (.thermal T) rest h

theorem settle_visible_accepted (after : FrameDecoder) (V : List Byte) (w : Bool) (rest : List Emission) {s : State}
    (h : s.visibleSink.accepts = true) :
    settle after (.visible V w :: rest) s = settle after rest { s with
      visibleSink := s.visibleSink.answered, emitted := s.emitted ++ [.visible V w] } :=
  settle_accepted after (.visible V w) rest h

theorem settle_visible_refused (after : FrameDecoder) (V : List Byte) (w : Bool) (rest : List Emission) {s : State}
    (h : s.visibleSink.accepts = false) :
    settle after (.visible V w :: rest) s = { s with
      visibleSink := s.visibleSink.answered, held := some { after := after, pending := .visible V w :: rest } } :=
  settle_refused after (.visible V w) rest h

/-! ## The transactions that are no CHUNK (44 R184-R186, R190) -/

/-- A dropped transaction leaves its one event in EVT and nothing else (44 R183-R186). -/
theorem dropWith_eq (e : Event) (s : State) :
    dropWith e s = { s with dec := { s.dec with evt := 1#16 <<< e.code } } := by
  have hevt : raise e 0 = 1#16 <<< e.code := BitVec.zero_or
  rw [dropWith, raiseEvent, clearEvents_evt, hevt]
  rfl

theorem dropWith_frameCount (e : Event) (s : State) : (dropWith e s).dec.frameCount = s.dec.frameCount := rfl

theorem raised_frameDone_dropWith {e : Event} (s : State) (he : e ≠ .frameDone) :
    raised .frameDone (dropWith e s).dec.evt = false := by
  simpa [raised_raise, he.symm] using raised_zero .frameDone

/-- No transaction takes back an output or changes MAX_CHUNK (44 R190, R194, 00 R8). -/
theorem exec_keeps_outputs {i : Instr} {s t : State} (h : exec i s = .next t) :
    t.maxChunk = s.maxChunk ∧ ∃ es, t.emitted = s.emitted ++ es := by
  cases i with
  | chunk data =>
    obtain ⟨-, hmax, -, hem, -⟩ := Certificates.chunkFrame data s t h
    exact ⟨hmax, hem⟩
  | chunkErr | illegal | chunkEmpty | rst =>
    cases h
    exact ⟨rfl, [], (List.append_nil _).symm⟩

/-! ## CHUNK where it waits for more bytes, and where it completes a frame (44 R187, R188) -/

/-- A kept chunk that completes no frame: WAIT_HEADER below 28 bytes, else WAIT_FRAME (41 R120, R124, 44 R187). -/
theorem exec_chunk_of_waiting {data : List Byte} {s : State} (hpos : 1 ≤ data.length)
    (hmax : data.length ≤ s.maxChunk) (hcap : s.maxChunk ≤ Config.capacity) (hheld : s.held = none)
    (hfront : frontTest (copyChunk data (clearEvents s.dec)) = true)
    (hwait : 28 ≤ appendBase s.dec data + data.length →
      appendBase s.dec data + data.length < le32 (s.dec.buf.write (appendBase s.dec data) data) 8 + 28) :
    exec (.chunk data) s = .next { s with dec :=
      { buf := s.dec.buf.write (appendBase s.dec data) data
        len := BitVec.ofNat 21 (appendBase s.dec data + data.length), frameCount := s.dec.frameCount
        evt := (if markerTest data then 0x0008#16 else 0#16)
          ||| (if overflowTest s.dec data then 0x0010#16 else 0#16)
          ||| (if appendBase s.dec data + data.length < 28 then 0x0040#16 else 0x0080#16) } } := by
  refine exec_chunk_of_no_emission hpos hmax hcap hheld ?_
  have hlen := copyChunk_len_toNat (clearEvents s.dec) (hmax.trans hcap)
  rw [appendBase_clearEvents] at hlen
  rw [← copyChunk_clearEvents_evt]
  rcases chunkResult_cases data s.dec with ⟨hf, -⟩ | ⟨-, hl, hr⟩ | ⟨-, hl, -, hr⟩ | ⟨-, hl, hn, -⟩
  · rw [hfront] at hf
    cases hf
  · rw [hr, if_pos (by omega)]
    rfl
  · rw [hr, if_neg (by omega)]
    rfl
  · have := hwait (by omega)
    rw [hlen] at hn
    exact absurd hn (Nat.not_le.2 this)

/-- A CHUNK that completes a frame hands its frames to the sinks, the thermal one first (44 R188, R192). -/
theorem exec_chunk_of_complete {data : List Byte} {s : State} (hpos : 1 ≤ data.length)
    (hmax : data.length ≤ s.maxChunk) (hcap : s.maxChunk ≤ Config.capacity)
    (hfront : ∀ i, i < min (appendBase s.dec data + data.length) 4 →
      (s.dec.buf.write (appendBase s.dec data) data).read i = [0xEF#8, 0xBE#8, 0x00#8, 0x00#8].getD i 0#8)
    (hhdr : 28 ≤ appendBase s.dec data + data.length)
    (hcomp : le32 (s.dec.buf.write (appendBase s.dec data) data) 8 + 28 ≤ appendBase s.dec data + data.length) :
    exec (.chunk data) s = .next (settle
      (completedDecoder data s.dec (s.dec.buf.write (appendBase s.dec data) data))
      (thermalPart (s.dec.buf.write (appendBase s.dec data) data)
        ++ visiblePart (s.dec.buf.write (appendBase s.dec data) data)) s) := by
  have hexec : exec (.chunk data) s = execChunk data s := rfl
  rw [hexec, execChunk_eq hpos hmax hcap, chunkResult_complete (hmax.trans hcap) hfront hhdr hcomp]

/-- The thermal sink is asked only if there is a ThermalFrame; if it then accepts, the transaction goes on (44 R188). -/
theorem settle_thermalPart (after : FrameDecoder) (b : Memory) (rest : List Emission) {s : State}
    (h : 0 < le32 b 12 → s.thermalSink.accepts = true) :
    settle after (thermalPart b ++ rest) s = settle after rest { s with
      thermalSink := if 0 < le32 b 12 then s.thermalSink.answered else s.thermalSink
      emitted := s.emitted ++ thermalPart b } := by
  by_cases ht : 0 < le32 b 12
  · simp only [thermalPart, if_pos ht, List.singleton_append]
    exact settle_thermal_accepted _ _ _ (h ht)
  · simp only [thermalPart, if_neg ht, List.nil_append, List.append_nil]

/-- The visible sink is asked only if there is a VisibleFrame; if it then accepts, the transaction ends (44 R188). -/
theorem settle_visiblePart (after : FrameDecoder) (b : Memory) {s : State}
    (h : 0 < le32 b 16 → s.visibleSink.accepts = true) :
    settle after (visiblePart b) s = { s with
      dec := after, held := none
      visibleSink := if 0 < le32 b 16 then s.visibleSink.answered else s.visibleSink
      emitted := s.emitted ++ visiblePart b } := by
  by_cases hv : 0 < le32 b 16
  · simp only [visiblePart, if_pos hv]
    exact settle_visible_accepted _ _ _ _ (h hv)
  · simp only [visiblePart, if_neg hv, List.append_nil, settle_nil]

/-! ## STATE after a CHUNK (10 R29, 44 R191) -/

@[simp] theorem fsmState_raiseEvent (e : Event) (d : FrameDecoder) : fsmState (raiseEvent e d) = fsmState d := rfl

@[simp] theorem fsmState_resetCursor (d : FrameDecoder) : fsmState (resetCursor d) = 0#2 := rfl

@[simp] theorem fsmState_completeFrame (h : FrameHeader) (d : FrameDecoder) : fsmState (completeFrame h d) = 0#2 := rfl

theorem fsmState_of_lt {d : FrameDecoder} (hpos : 1 ≤ d.len.toNat) (h : d.len.toNat < 28) : fsmState d = 1#2 := by
  rw [fsmState, if_neg (by omega), if_pos h]
  rfl

theorem fsmState_of_le {d : FrameDecoder} (h : 28 ≤ d.len.toNat) : fsmState d = 2#2 := by
  rw [fsmState, if_neg (by omega), if_neg h.not_gt]
  rfl

/-- The append raises no final event but RESYNC, so after a kept chunk the final events are those that the CHUNK rule
then raises (60 R213). -/
theorem raised_copyChunk_of_final (data : List Byte) (d : FrameDecoder) {e : Event} (hm : e ≠ .resetMarker)
    (ho : e ≠ .resetOverflow) : raised e (copyChunk data (clearEvents d)).evt = false := by
  simpa [raised_raiseIf, hm, ho] using raised_zero e

/-- The STATE each final event leads to (44 R191). -/
theorem fsmState_chunkResult {data : List Byte} (d : FrameDecoder) (hpos : 1 ≤ data.length)
    (hlen : data.length ≤ Config.capacity) :
    (raised .resync (chunkResult data d).1.evt = true → fsmState (chunkResult data d).1 = 0#2)
      ∧ (raised .waitHeader (chunkResult data d).1.evt = true → fsmState (chunkResult data d).1 = 1#2)
      ∧ (raised .waitFrame (chunkResult data d).1.evt = true → fsmState (chunkResult data d).1 = 2#2)
      ∧ (raised .frameDone (chunkResult data d).1.evt = true → fsmState (chunkResult data d).1 = 0#2) := by
  have hn := copyChunk_len_toNat (clearEvents d) hlen
  have hresync := raised_copyChunk_of_final data d (e := .resync) nofun nofun
  have hheader := raised_copyChunk_of_final data d (e := .waitHeader) nofun nofun
  have hframe := raised_copyChunk_of_final data d (e := .waitFrame) nofun nofun
  have hdone := raised_copyChunk_of_final data d (e := .frameDone) nofun nofun
  rcases chunkResult_cases data d with ⟨-, hr⟩ | ⟨-, hl, hr⟩ | ⟨-, hl, -, hr⟩ | ⟨-, -, -, hr⟩ <;> rw [hr]
  · simp [-copyChunk_evt, raised_raise, hheader, hframe, hdone]
  · have hstate : fsmState (copyChunk data (clearEvents d)) = 1#2 := fsmState_of_lt (by omega) hl
    simp [-copyChunk_evt, raised_raise, hresync, hframe, hdone, hstate]
  · have hstate : fsmState (copyChunk data (clearEvents d)) = 2#2 := fsmState_of_le hl
    simp [-copyChunk_evt, raised_raise, hresync, hheader, hdone, hstate]
  · simp [-copyChunk_evt, completionEvents, raised_raise, raised_raiseIf, hresync, hheader, hframe]

/-! ## Writes that follow one another in `BUF` (20 R65) -/

theorem cellsAt_append (a : Nat) (p c : List Byte) :
    cellsAt a (p ++ c) = cellsAt a p ++ cellsAt (a + p.length) c := by
  simp [cellsAt, List.zipIdx_append]

/-- A write of no bytes changes nothing. -/
theorem write_nil (m : Memory) : m.write 0 [] = m := by
  simp [Memory.write, cellsAt_nil]

theorem lt_end_of_mem_head {m : Memory} {a : Nat} {p : List Byte} {x : Host.Cell}
    (hx : x ∈ m.filter (fun x => decide (x.1 < a)) ++ cellsAt a p) : x.1 < a + p.length := by
  rcases List.mem_append.1 hx with hx | hx
  · have := of_decide_eq_true (List.mem_filter.1 hx).2
    omega
  · exact (mem_cellsAt hx).2.1

/-- What lies below the end of a write: the old entries below its start and the bytes written. -/
theorem filter_lt_end_write (m : Memory) (a : Nat) (p : List Byte) :
    (m.write a p).filter (fun x => decide (x.1 < a + p.length))
      = m.filter (fun x => decide (x.1 < a)) ++ cellsAt a p := by
  have hhead : (m.filter (fun x => decide (x.1 < a)) ++ cellsAt a p).filter (fun x => decide (x.1 < a + p.length))
      = m.filter (fun x => decide (x.1 < a)) ++ cellsAt a p :=
    List.filter_eq_self.2 fun x hx => decide_eq_true (lt_end_of_mem_head hx)
  have htail : (m.filter (fun x => decide (a + p.length ≤ x.1))).filter (fun x => decide (x.1 < a + p.length))
      = [] :=
    List.filter_eq_nil_iff.2 fun x hx hlt =>
      absurd (of_decide_eq_true hlt) (Nat.not_lt.2 (of_decide_eq_true (List.mem_filter.1 hx).2))
  rw [Memory.write, List.filter_append, hhead, htail, List.append_nil]

/-- Beyond the end of a write stand the old entries. -/
theorem filter_ge_write (m : Memory) {a n : Nat} {p : List Byte} (hn : a + p.length ≤ n) :
    (m.write a p).filter (fun x => decide (n ≤ x.1)) = m.filter (fun x => decide (n ≤ x.1)) := by
  have hhead : (m.filter (fun x => decide (x.1 < a)) ++ cellsAt a p).filter (fun x => decide (n ≤ x.1)) = [] :=
    List.filter_eq_nil_iff.2 fun x hx hle =>
      absurd (of_decide_eq_true hle) (Nat.not_le.2 ((lt_end_of_mem_head hx).trans_le hn))
  rw [Memory.write, List.filter_append, hhead, List.nil_append, List.filter_filter]
  refine List.filter_congr fun x _ => ?_
  rw [← Bool.decide_and]
  exact decide_eq_decide.2 (by omega)

/-- A write that begins where another ended is, with it, one write. -/
theorem write_write_end (m : Memory) (a : Nat) (p c : List Byte) :
    (m.write a p).write (a + p.length) c = m.write a (p ++ c) := by
  rw [Memory.write, filter_lt_end_write, filter_ge_write m (Nat.le_add_right ..), Memory.write, cellsAt_append,
    List.length_append, ← Nat.add_assoc, List.append_assoc _ _ (cellsAt (a + p.length) c)]

/-! ## A well-formed frame, whole or its first bytes alone, in `BUF` (30 R79) -/

/-- Every byte written over the front of `BUF`. -/
theorem read_write_front (m : Memory) {p : List Byte} {i : Nat} (hi : i < p.length) :
    (m.write 0 p).read i = p.getD i 0x00#8 := by
  rw [read_write, if_pos (by omega), Nat.sub_zero]

theorem getD_of_prefix {p f : List Byte} (h : p <+: f) {i : Nat} (hi : i < p.length) :
    f.getD i 0x00#8 = p.getD i 0x00#8 := by
  obtain ⟨r, rfl⟩ := h
  exact List.getD_append p r _ i hi

theorem le32Of_of_prefix {p f : List Byte} (h : p <+: f) {o : Nat} (ho : o + 4 ≤ p.length) :
    le32Of f o = le32Of p o := by
  simp only [le32Of]
  rw [getD_of_prefix h (i := o) (by omega), getD_of_prefix h (i := o + 1) (by omega),
    getD_of_prefix h (i := o + 2) (by omega), getD_of_prefix h (i := o + 3) (by omega)]

theorem length_of_wellFormedFrame {f : List Byte} (hf : WellFormedFrame f) : 28 ≤ f.length := by
  rw [hf.size]
  omega

theorem markerTest_of_prefix {p f : List Byte} (hf : WellFormedFrame f) (h : p <+: f) (hp : 4 ≤ p.length) :
    markerTest p = true := by
  rw [markerTest_iff_prefix]
  refine List.prefix_of_prefix_length_le ?_ h hp
  exact hf.front ▸ List.take_prefix 4 f

/-- The bytes of a frame that have come, at the front of `BUF`, pass the front test (40 R104). -/
theorem front_of_prefix {p f : List Byte} (hf : WellFormedFrame f) (h : p <+: f) (m : Memory) {i : Nat}
    (hi : i < min p.length 4) : (m.write 0 p).read i = [0xEF#8, 0xBE#8, 0x00#8, 0x00#8].getD i 0#8 := by
  have hmark := markerTest_of_prefix hf (List.prefix_refl f) (by have := length_of_wellFormedFrame hf; omega)
  rw [read_write_front m (by omega), ← getD_of_prefix h (by omega)]
  exact getD_of_markerTest hmark (by omega)

/-- The slice of a well-formed frame is a run of its own bytes (43 R162, R167). -/
theorem jpegSlice_write_frame {f : List Byte} (hf : WellFormedFrame f) (hlen : f.length ≤ Config.capacity)
    (m : Memory) : jpegSlice (m.write 0 f) (28 + le32Of f 12) (le32Of f 16)
      = (f.drop (28 + le32Of f 12)).take (le32Of f 16) := by
  have hsize := hf.size
  have hpay := hf.payload
  apply List.ext_getElem
  · simp only [jpegSlice_length, List.length_take, List.length_drop]
    omega
  · intro i h1 h2
    have hi : i < le32Of f 16 := by rwa [jpegSlice_length] at h1
    rw [jpegSlice_getElem, if_pos (by omega), read_write_front m (by omega), List.getElem_take, List.getElem_drop,
      List.getD_eq_getElem]

/-- The SOI test asks for the first two bytes alone: a slice that has them is long enough (43 R163, R164). -/
theorem soiMissing_eq (slice : List Byte) : soiMissing slice = !(slice.take 2 == [0xFF#8, 0xD8#8]) := by
  rw [← Bool.not_inj_iff, Bool.not_not, Bool.eq_iff_iff, Bool.not_eq_true', soiMissing_eq_false_iff_prefix,
    List.prefix_iff_eq_take, beq_iff_eq, eq_comm]
  rfl

/-! ## What a well-formed frame emits (44 R188) -/

@[simp] theorem thermalFrames_append (es es' : List Emission) :
    thermalFrames (es ++ es') = thermalFrames es ++ thermalFrames es' := by
  induction es with
  | nil => rfl
  | cons e es ih => cases e <;> simp [thermalFrames, ih]

@[simp] theorem visibleFrames_append (es es' : List Emission) :
    visibleFrames (es ++ es') = visibleFrames es ++ visibleFrames es' := by
  induction es with
  | nil => rfl
  | cons e es ih => cases e <;> simp [visibleFrames, ih]

theorem visibleFrames_thermalPart (b : Memory) : visibleFrames (thermalPart b) = [] := by
  by_cases h : 0 < le32 b 12 <;> simp [thermalPart, h, visibleFrames]

theorem thermalFrames_thermalPart (b : Memory) :
    thermalFrames (thermalPart b) = if 0 < le32 b 12 then [thermalFrame b] else [] := by
  by_cases h : 0 < le32 b 12 <;> simp [thermalPart, h, thermalFrames]

theorem thermalFrames_visiblePart (b : Memory) : thermalFrames (visiblePart b) = [] := by
  by_cases h : 0 < le32 b 16 <;> simp [visiblePart, h, thermalFrames]

/-- A well-formed frame's VisibleFrame, with its warning, is made of its own bytes (43 R162, R163). -/
theorem visibleFrames_visiblePart {f : List Byte} (hf : WellFormedFrame f) (hlen : f.length ≤ Config.capacity)
    (m : Memory) : visibleFrames (visiblePart (m.write 0 f)) = visibleOf f := by
  have h28 := length_of_wellFormedFrame hf
  rw [visiblePart, le32_write_front m (by omega), le32_write_front m (by omega), visibleFrame,
    jpegSlice_write_frame hf hlen, soiMissing_eq, visibleOf]
  by_cases h : 0 < le32Of f 16 <;> simp [h, visibleFrames, Config.pad]

/-! ## A frame cut into chunks (44 R195) -/

/-- `s` while a frame is being received of which the bytes `p` have come: they stand over the front of the `BUF` of `s`,
nothing has been emitted or counted, and `input` and `evt` are what the port and EVT now hold. -/
def State.receiving (s : State) (p : List Byte) (input : List PortEvent) (evt : BitVec 16) : State :=
  { s with
    input := input
    dec :=
      { buf := s.dec.buf.write 0 p
        len := if p = [] then s.dec.len else BitVec.ofNat 21 p.length
        frameCount := s.dec.frameCount
        evt := evt } }

theorem receiving_nil (s : State) : s.receiving [] s.input s.dec.evt = s := by
  simp [State.receiving, write_nil]

/-- The chunks `cs` are what is left of a cut of the frame `f` after its bytes `p`, under the premises of 44 R195, for a
machine that was in state `s` before the frame. -/
structure Cut (s : State) (f p : List Byte) (cs : List (List Byte)) : Prop where
  whole : p ++ cs.flatten = f
  bounds : ∀ c ∈ cs, 1 ≤ c.length ∧ c.length ≤ s.maxChunk
  /-- The frame starts in an EMPTY core or with a chunk that test `M` can see. -/
  first : p = [] → s.dec.len = 0#21 ∨ 4 ≤ (cs.headD []).length
  /-- No later chunk begins with the marker. -/
  later : ∀ c ∈ (if p = [] then cs.tail else cs), markerTest c = false
  /-- A frame of C bytes comes in one chunk. -/
  short : f.length ≤ 1048575 ∨ (p = [] ∧ cs.length = 1)

section Cut

variable {s : State} {f p c : List Byte} {cs : List (List Byte)}

theorem Cut.tail (h : Cut s f p (c :: cs)) (hcs : cs ≠ []) : Cut s f (p ++ c) cs := by
  have hc : p ++ c ≠ [] := by
    have := (h.bounds c List.mem_cons_self).1
    exact List.append_ne_nil_of_right_ne_nil p (List.ne_nil_of_length_pos this)
  refine ⟨by simpa using h.whole, fun d hd => h.bounds d (List.mem_cons_of_mem c hd), fun h0 => absurd h0 hc, ?_, ?_⟩
  · intro d hd
    rw [if_neg hc] at hd
    refine h.later d ?_
    split
    · exact hd
    · exact List.mem_cons_of_mem c hd
  · refine h.short.imp_right fun h1 => ?_
    have hlen : cs.length = 0 := by simpa using h1.2
    exact absurd (List.eq_nil_of_length_eq_zero hlen) hcs

theorem Cut.isPrefix (h : Cut s f p (c :: cs)) : p ++ c <+: f :=
  ⟨cs.flatten, by simpa using h.whole⟩

/-- Each chunk of the frame is copied to where the one before it ended (40 R105): the first to index 0, by test `M` or
because the core is EMPTY; a later one to the cursor, since neither test holds. -/
theorem Cut.appendBase_eq_length (h : Cut s f p (c :: cs)) (hf : WellFormedFrame f) (input : List PortEvent)
    (evt : BitVec 16) :
    appendBase (s.receiving p input evt).dec c = p.length := by
  by_cases hp : p = []
  · subst hp
    rcases h.first rfl with hempty | h4
    · simp [Machine.appendBase_eq, State.receiving, hempty]
    · exact appendBase_of_markerTest _ (markerTest_of_prefix hf h.isPrefix h4)
  · have hm : markerTest c = false := h.later c (by simp [hp])
    have hshort : f.length ≤ 1048575 := h.short.resolve_right fun h1 => hp h1.1
    have hle := h.isPrefix.length_le
    rw [List.length_append] at hle
    have hlen : (s.receiving p input evt).dec.len.toNat = p.length := by
      simpa [State.receiving, hp] using ofNat21_toNat (n := p.length) (by simp only [Config.capacity]; omega)
    have ho : overflowTest (s.receiving p input evt).dec c = false := by
      rw [overflowTest, hlen, decide_eq_false_iff_not]
      simp only [Config.capacity]
      omega
    rw [Machine.appendBase_eq, hm, ho, hlen]
    rfl

theorem Cut.write_eq (h : Cut s f p (c :: cs))
    (hf : WellFormedFrame f) (input : List PortEvent) (evt : BitVec 16) :
    (s.receiving p input evt).dec.buf.write (appendBase (s.receiving p input evt).dec c) c
      = s.dec.buf.write 0 (p ++ c) := by
  rw [h.appendBase_eq_length hf]
  simpa [State.receiving] using write_write_end s.dec.buf 0 p c

theorem Cut.front (h : Cut s f p (c :: cs))
    (hf : WellFormedFrame f) (input : List PortEvent) (evt : BitVec 16) :
    let d := (s.receiving p input evt).dec
    ∀ i, i < min (appendBase d c + c.length) 4 →
      (d.buf.write (appendBase d c) c).read i = [0xEF#8, 0xBE#8, 0x00#8, 0x00#8].getD i 0#8 := by
  intro d i hi
  rw [h.appendBase_eq_length hf, ← List.length_append] at hi
  rw [h.write_eq hf]
  exact front_of_prefix hf h.isPrefix s.dec.buf hi

/-- A chunk that is not the last leaves the core waiting, with the frame's bytes so far in front (44 R187). -/
theorem Cut.exec_chunk_waits (h : Cut s f p (c :: cs))
    (hcs : cs ≠ []) (hf : WellFormedFrame f) (hcap : s.maxChunk ≤ Config.capacity) (hheld : s.held = none)
    (input : List PortEvent) (evt : BitVec 16) :
    ∃ evt', exec (.chunk c) (s.receiving p input evt) = .next (s.receiving (p ++ c) input evt') := by
  obtain ⟨hpos, hmax⟩ := h.bounds c List.mem_cons_self
  have hshort : (p ++ c).length < f.length := by
    obtain ⟨d, ds, rfl⟩ := List.exists_cons_of_ne_nil hcs
    have hd := (h.bounds d (by simp)).1
    have hlen := congrArg List.length h.whole
    simp only [List.flatten_cons, List.length_append] at hlen ⊢
    omega
  have hbase := h.appendBase_eq_length hf input evt
  have hwrite := h.write_eq hf input evt
  have hfront := (frontTest_copyChunk _ (hmax.trans hcap)).2 (h.front hf input evt)
  have hwait : 28 ≤ (p ++ c).length → (p ++ c).length < le32 (s.dec.buf.write 0 (p ++ c)) 8 + 28 := by
    intro h28
    rw [le32_write_front _ (by omega), ← le32Of_of_prefix h.isPrefix (by omega), Nat.add_comm, ← hf.size]
    exact hshort
  have hexec := exec_chunk_of_waiting (s := s.receiving p input evt) hpos hmax hcap hheld hfront
    (by rwa [hwrite, hbase, ← List.length_append])
  have hne : p ++ c ≠ [] := List.append_ne_nil_of_right_ne_nil p (List.ne_nil_of_length_pos hpos)
  rw [hwrite, hbase, ← List.length_append] at hexec
  rw [hexec]
  simp only [State.receiving, if_neg hne]
  exact ⟨_, rfl⟩

theorem raised_frameDone_completedEvents (data : List Byte) (d : FrameDecoder) (b : Memory) :
    raised .frameDone (completedEvents data d b) = true := by
  rw [← completionEvents_eq]
  exact raised_frameDone_completionEvents ..

/-- The last chunk completes the frame, which then stands whole over the front of `BUF` (44 R188). -/
theorem Cut.exec_chunk_completes (h : Cut s f p [c]) (hf : WellFormedFrame f)
    (hcap : s.maxChunk ≤ Config.capacity) (hready : SinksReady s) (input : List PortEvent) (evt : BitVec 16) :
    let b := s.dec.buf.write 0 f
    exec (.chunk c) (s.receiving p input evt) = .next { s with
      input := input, held := none
      dec := completedDecoder c (s.receiving p input evt).dec b
      emitted := s.emitted ++ (thermalPart b ++ visiblePart b) } := by
  intro b
  obtain ⟨hpos, hmax⟩ := h.bounds c List.mem_cons_self
  have hwhole : p ++ c = f := by simpa using h.whole
  have h28 := length_of_wellFormedFrame hf
  have hbase : appendBase (s.receiving p input evt).dec c + c.length = f.length := by
    rw [h.appendBase_eq_length hf, ← List.length_append, hwhole]
  have hwrite := h.write_eq hf input evt
  rw [hwhole] at hwrite
  have hcomp : le32 b 8 + 28 ≤ f.length := by
    rw [le32_write_front _ (by omega), Nat.add_comm, ← hf.size]
  rw [exec_chunk_of_complete (s := s.receiving p input evt) hpos hmax hcap (h.front hf input evt) (by rwa [hbase])
    (by rwa [hwrite, hbase]), hwrite, settle_ready]
  · rfl
  · exact hready

theorem chunksOf_append (is js : List Instr) : chunksOf (is ++ js) = chunksOf is ++ chunksOf js := by
  induction is with
  | nil => rfl
  | cons i is ih => cases i <;> simp [chunksOf, ih]

theorem mem_chunksOf {is : List Instr} {c : List Byte} (h : c ∈ chunksOf is) : .chunk c ∈ is := by
  induction is with
  | nil => cases h
  | cons i is ih =>
    cases i with
    | chunk d =>
      rcases List.mem_cons.1 h with rfl | h
      · exact List.mem_cons_self
      · exact List.mem_cons_of_mem _ (ih h)
    | chunkErr | illegal | chunkEmpty | rst => exact List.mem_cons_of_mem _ (ih h)

theorem step_receiving {s : State} {i : Instr} (hcap : s.maxChunk ≤ Config.capacity) (hheld : s.held = none)
    (hi : WellFormed s.maxChunk i) (p : List Byte) (input : List PortEvent) (evt : BitVec 16) :
    step (s.receiving p (encode i :: input) evt) = exec i (s.receiving p input evt) :=
  step_of_decode hheld rfl (Certificates.decodeInvertsEncode _ _ hcap hi)

/-- A transaction of the frame before its last chunk leaves the core receiving the frame, and nothing emitted or
counted: a chunk adds its bytes, a dropped transaction only writes EVT (44 R184-R187). -/
theorem Cut.step_waits {i : Instr} {is : List Instr} (h : Cut s f p (chunksOf (i :: is)))
    (his : chunksOf is ≠ []) (hi : WellFormed s.maxChunk i ∧ i ≠ .rst) (hf : WellFormedFrame f)
    (hcap : s.maxChunk ≤ Config.capacity) (hheld : s.held = none) (input : List PortEvent) (evt : BitVec 16) :
    ∃ q evt', step (s.receiving p (encode i :: input) evt) = .next (s.receiving q input evt')
      ∧ Cut s f q (chunksOf is) := by
  rw [step_receiving hcap hheld hi.1]
  cases i with
  | chunk c =>
    obtain ⟨evt', hexec⟩ := Cut.exec_chunk_waits h his hf hcap hheld input evt
    exact ⟨p ++ c, evt', hexec, Cut.tail h his⟩
  | chunkErr | illegal | chunkEmpty => exact ⟨p, _, rfl, h⟩
  | rst => exact absurd rfl hi.2

/-- The transactions `front` of a frame whose last chunk is still to come. -/
theorem Cut.run_waits (hf : WellFormedFrame f) (hcap : s.maxChunk ≤ Config.capacity)
    (hheld : s.held = none) {back : List Instr} (hback : chunksOf back ≠ []) (input : List PortEvent) :
    ∀ (front : List Instr) (p : List Byte) (evt : BitVec 16), (∀ i ∈ front, WellFormed s.maxChunk i ∧ i ≠ .rst) →
      Cut s f p (chunksOf (front ++ back)) →
      ∃ q evt', runSteps front.length (s.receiving p (front.map encode ++ input) evt) = .next (s.receiving q input evt')
        ∧ Cut s f q (chunksOf back)
  | [], p, evt, _, h => ⟨p, evt, rfl, h⟩
  | i :: front, p, evt, hall, h => by
    have hrest : chunksOf (front ++ back) ≠ [] := by
      rw [chunksOf_append]
      exact List.append_ne_nil_of_right_ne_nil _ hback
    obtain ⟨q, evt', hstep, hcut⟩ :=
      Cut.step_waits h hrest (hall i List.mem_cons_self) hf hcap hheld (front.map encode ++ input) evt
    rw [List.length_cons, List.map_cons, List.cons_append, runSteps_succ hstep]
    exact Cut.run_waits hf hcap hheld hback input front q evt' (fun j hj => hall j (List.mem_cons_of_mem i hj)) hcut

/-- The first `k` transactions of a frame whose last chunk is not among them. -/
theorem Cut.run_prefix {is : List Instr} (h : Cut s f [] (chunksOf is))
    (hf : WellFormedFrame f) (hcap : s.maxChunk ≤ Config.capacity) (hheld : s.held = none)
    (hall : ∀ i ∈ is, WellFormed s.maxChunk i ∧ i ≠ .rst) {rest : List PortEvent}
    (hin : s.input = is.map encode ++ rest) {k : Nat} (hk : k ≤ is.length) (hback : chunksOf (is.drop k) ≠ []) :
    ∃ q evt, runSteps k s = .next (s.receiving q ((is.drop k).map encode ++ rest) evt)
      ∧ Cut s f q (chunksOf (is.drop k)) := by
  have hlen : (is.take k).length = k := List.length_take_of_le hk
  have hrun := Cut.run_waits hf hcap hheld hback ((is.drop k).map encode ++ rest) (is.take k) [] s.dec.evt
    (fun i hi => hall i (List.mem_of_mem_take hi)) (by rwa [List.take_append_drop])
  rwa [← List.append_assoc, ← List.map_append, List.take_append_drop, ← hin, receiving_nil, hlen] at hrun

end Cut

/-! ## A stream of frames, one chunk each (44 R197) -/

/-- A frame in one chunk is a cut of itself. -/
theorem cut_single {s : State} {f : List Byte} (hf : WellFormedFrame f) (hmax : f.length ≤ s.maxChunk) :
    Cut s f [] [f] := by
  have h28 := length_of_wellFormedFrame hf
  refine ⟨by simp, fun c hc => ?_, fun _ => .inr ?_, fun c hc => ?_, .inr ⟨rfl, rfl⟩⟩
  · rw [List.mem_singleton.1 hc]
    exact ⟨by omega, hmax⟩
  · exact (by decide : 4 ≤ 28).trans h28
  · cases hc

/-- `s` after a frame `f` that came whole in one chunk, with `input` left on the port. -/
def State.afterFrame (s : State) (f : List Byte) (input : List PortEvent) : State :=
  let b := s.dec.buf.write 0 f
  { s with
    input := input
    dec := completedDecoder f s.dec b
    emitted := s.emitted ++ (thermalPart b ++ visiblePart b) }

/-- The frame at the head of the port, in a chunk of its own, is emitted and counted in one step. -/
theorem step_frame {s : State} {f : List Byte} {rest : List PortEvent} (hf : WellFormedFrame f)
    (hmax : f.length ≤ s.maxChunk) (hcap : s.maxChunk ≤ Config.capacity) (hheld : s.held = none)
    (hready : SinksReady s) (hin : s.input = chunkOf f :: rest) : step s = .next (s.afterFrame f rest) := by
  have h28 := length_of_wellFormedFrame hf
  have hdec := Certificates.decodeInvertsEncode s.maxChunk (.chunk f) hcap (wellFormed_chunk.2 ⟨by omega, hmax⟩)
  have hexec := (cut_single (s := { s with input := rest }) hf hmax).exec_chunk_completes hf hcap hready rest s.dec.evt
  rw [receiving_nil { s with input := rest }] at hexec
  rw [step_of_decode hheld hin hdec, hexec, ← hheld]
  rfl

theorem visibleFrames_afterFrame {s : State} {f : List Byte} (hf : WellFormedFrame f)
    (hlen : f.length ≤ Config.capacity) (input : List PortEvent) :
    visibleFrames (s.afterFrame f input).emitted = visibleFrames s.emitted ++ visibleOf f := by
  simp only [State.afterFrame, visibleFrames_append, visibleFrames_thermalPart, visibleFrames_visiblePart hf hlen,
    List.nil_append]

theorem thermalFrames_afterFrame {s : State} {f : List Byte} (hf : WellFormedFrame f) (input : List PortEvent) :
    (thermalFrames (s.afterFrame f input).emitted).length
      = (thermalFrames s.emitted).length + (if 0 < le32Of f 12 then 1 else 0) := by
  have h28 := length_of_wellFormedFrame hf
  simp only [State.afterFrame, thermalFrames_append, thermalFrames_thermalPart, thermalFrames_visiblePart,
    List.append_nil, List.length_append, le32_write_front s.dec.buf (f := f) (o := 12) (by omega)]
  split <;> rfl

end Sys2Proof.Machine

/-! ## The statements -/

namespace Sys2Proof.Certificates

open Sys2Proof.Machine Sys2Proof.Safety

/-- Settles O16, by induction on the number of steps: a state that meets the invariant has a step (`step_answers`), and
the next state meets it again. -/
theorem everyRunStaysInBounds : Obligations.EveryRunStaysInBounds := by
  intro k
  induction k with
  | zero => exact fun s hs => .inl ⟨s, rfl, hs.dec_inv.len_le⟩
  | succ k ih =>
    intro s hs
    rcases step_answers hs.maxChunk_le with ⟨t, ht⟩ | hrefused
    · rw [runSteps_succ ht]
      exact ih t (everyStepKeepsInvariant s t hs ht)
    · exact .inr (runSteps_succ_of_refused hrefused k)

/-- Settles O11: a step of such a core is `settle` on the pending frames, whose cases the clauses name. -/
theorem holdLiftedOnlyByAcceptance : Obligations.HoldLiftedOnlyByAcceptance := by
  intro s h hheld
  have hstep := step_of_held hheld
  refine ⟨?_, fun e rest hpend href => ?_, fun e rest hpend hacc => ?_, fun T V w hpend hT hV => ?_, fun hready => ?_⟩
  · obtain ⟨done, rest, hpend, hem, hmax, hin, hend⟩ := settle_cases h.after h.pending s
    refine ⟨_, done, rest, hstep, hpend, hem, hin, hmax, ?_⟩
    rcases hend with ⟨hrest, hdec, hnone⟩ | ⟨hrest, hdec, hsome⟩
    · exact .inl ⟨hrest, hnone, hdec⟩
    · exact .inr ⟨hrest, hsome, hdec⟩
  · rw [hstep, settle_pending_refused hheld hpend href]
  · rw [hstep, step_of_held rfl, hpend, settle_accepted _ _ _ hacc]
    exact congrArg Host.Outcome.next (settle_held _ _ _ _).symm
  · rw [hstep, hpend, settle_thermal_accepted _ _ _ hT, settle_visible_refused]
    exact hV
  · rw [hstep, settle_ready _ _ hready]

/-- Settles O33: a hold and a transaction only append to the output history, and an idle core holds its state. -/
theorem outputsStayEmitted : Obligations.OutputsStayEmitted := by
  intro s t h
  rcases step_cases h with ⟨k, -, rfl⟩ | ⟨-, -, rfl⟩ | ⟨ev, rest, i, -, -, -, hexec⟩
  · obtain ⟨done, -, -, hem, hmax, -, -⟩ := settle_cases k.after k.pending s
    exact ⟨hmax, done, hem⟩
  · exact ⟨rfl, [], (List.append_nil _).symm⟩
  · exact exec_keeps_outputs (s := { s with input := rest }) hexec

/-- Settles O32: CHUNK counts with FRAME_DONE (`chunkFrame`), RST clears the counter, and a dropped transaction raises
its one event, which is not FRAME_DONE. -/
theorem counterCountsFrames : Obligations.CounterCountsFrames := by
  intro i s t h hnone
  cases i with
  | chunk data =>
    obtain ⟨-, -, -, -, hcount, -⟩ := chunkFrame data s t h
    have hi : Instr.chunk data ≠ .rst := nofun
    rw [hcount hnone, apply_ite BitVec.toNat, if_neg hi]
    rfl
  | rst => cases h; rfl
  | chunkErr | illegal | chunkEmpty =>
    cases h
    simp [-dropWith_dec, dropWith_frameCount, raised_frameDone_dropWith]

/-- Settles O8: with a transfer that decodes, the step's one branch is this one (`step_of_decode`). -/
theorem stepRunsDecodedTransaction : Obligations.StepRunsDecodedTransaction :=
  fun _ _ _ _ => step_of_decode

/-- Settles O17: order 1 of 30 R72 (`decode_chunkErr`), and the drop with the event of code 0 (`dropWith_eq`). -/
theorem chunkErrDropsChunk : Obligations.ChunkErrDropsChunk :=
  ⟨fun _ _ _ he => ⟨_, _, decode_chunkErr he⟩, fun _ _ s => congrArg Host.Outcome.next (dropWith_eq .dropErr s)⟩

/-- Settles O18: order 2 of 30 R72 (`decode_illegal`), and the drop with the event of code 2 (`dropWith_eq`). -/
theorem illegalDropsDescriptor : Obligations.IllegalDropsDescriptor :=
  ⟨fun _ _ _ he hill => ⟨_, _, decode_illegal he hill⟩,
    fun _ _ s => congrArg Host.Outcome.next (dropWith_eq .illegalDesc s)⟩

/-- Settles O19: order 3 of 30 R72 (`decode_chunkEmpty`), and the drop with the event of code 1 (`dropWith_eq`). -/
theorem chunkEmptyDropsChunk : Obligations.ChunkEmptyDropsChunk :=
  ⟨fun _ => decode_chunkEmpty (by decide) (by decide) (by decide),
    fun s => congrArg Host.Outcome.next (dropWith_eq .dropEmpty s)⟩

/-- Settles O20: RST is this one update of the registers; a held core's step is `settle`, which takes nothing off the
port. -/
theorem rstClearsRegisters : Obligations.RstClearsRegisters := by
  refine ⟨fun s => ⟨_, rfl, rfl, rfl⟩, fun s t h hheld ht => ?_⟩
  cases (step_of_held hheld).symm.trans ht
  obtain ⟨-, -, -, -, -, hin, -⟩ := settle_cases h.after h.pending s
  exact hin

/-- Settles O30: a dropped transaction rewrites EVT alone, RST the registers alone. -/
theorem othersFrame : Obligations.OthersFrame := by
  intro i s hi
  cases i with
  | chunk data => exact absurd rfl (hi data)
  | chunkErr | illegal | chunkEmpty =>
    exact ⟨_, rfl, rfl, fun _ => rfl, rfl, rfl, rfl, rfl, rfl, rfl, fun _ => ⟨rfl, rfl⟩⟩
  | rst => exact ⟨_, rfl, rfl, fun _ => rfl, rfl, rfl, rfl, rfl, rfl, rfl, fun h => absurd rfl h⟩

/-- Settles O25: the kept chunk of `exec_chunk_of_waiting`, below 28 bytes. -/
theorem chunkWaitsForHeader : Obligations.ChunkWaitsForHeader := by
  intro data s hpos hmax hcap hheld b n hfront hn
  rw [exec_chunk_of_waiting hpos hmax hcap hheld ((frontTest_copyChunk s.dec (hmax.trans hcap)).2 hfront)
    (fun h => absurd h (by omega)), if_pos (Nat.lt_succ_of_le hn)]

/-- Settles O26: the kept chunk of `exec_chunk_of_waiting`, from 28 bytes on. -/
theorem chunkWaitsForFrame : Obligations.ChunkWaitsForFrame := by
  intro data s hpos hmax hcap hheld b n hfront hhdr hn
  rw [exec_chunk_of_waiting hpos hmax hcap hheld ((frontTest_copyChunk s.dec (hmax.trans hcap)).2 hfront)
    (fun _ => hn), if_neg (Nat.not_lt.2 hhdr)]

/-- Settles O27: both sinks accept what they are asked to accept. -/
theorem chunkCompletesFrame : Obligations.ChunkCompletesFrame := by
  intro data s hpos hmax hcap hheld b n hfront hhdr hcomp hT hV
  rw [exec_chunk_of_complete hpos hmax hcap hfront hhdr hcomp, settle_thermalPart _ b _ hT,
    settle_visiblePart, ← hheld]
  exact hV

/-- Settles O28: with TS > 0 the thermal sink is the first one asked. -/
theorem chunkHeldByThermalSink : Obligations.ChunkHeldByThermalSink := by
  intro data s hpos hmax hcap hheld hT b n hfront hhdr hcomp hts
  have hpart : thermalPart b = [.thermal (thermalFrame b)] := if_pos hts
  rw [exec_chunk_of_complete hpos hmax hcap hfront hhdr hcomp, hpart, List.singleton_append,
    settle_thermal_refused _ _ _ hT]

/-- Settles O29: once the thermal sink has accepted, or has not been asked, the visible sink refuses. -/
theorem chunkHeldByVisibleSink : Obligations.ChunkHeldByVisibleSink := by
  intro data s hpos hmax hcap hheld hV b n hfront hhdr hcomp hT hjs
  have hpart : visiblePart b = [.visible (visibleFrame b (28 + le32 b 12) (le32 b 16))
      (soiMissing (jpegSlice b (28 + le32 b 12) (le32 b 16)))] := if_pos hjs
  rw [exec_chunk_of_complete hpos hmax hcap hfront hhdr hcomp, settle_thermalPart _ b _ hT, hpart,
    settle_visible_refused]
  exact hV

/-- Settles O35: what CHUNK leaves has the STATE of its final event (`fsmState_chunkResult`). -/
theorem chunkTransitions : Obligations.ChunkTransitions := by
  intro data s t h hnone
  obtain ⟨hpos, -, hfits, rfl⟩ := execChunk_next h
  rw [(settle_leaves_after _ _ s).1 hnone]
  exact fsmState_chunkResult s.dec hpos (by omega)

/-- Settles O37: an overflowing chunk is copied to index 0, where the front test sees its own first bytes. -/
theorem overflowingNoiseEmptiesBuffer : Obligations.OverflowingNoiseEmptiesBuffer := by
  intro data s h4 hmax hcap hheld hm hover
  have ho : overflowTest s.dec data = true := decide_eq_true hover
  have hbase : appendBase s.dec data = 0 := by rw [appendBase_eq, if_pos (.inr ho)]
  rw [exec_chunk_of_noise_at_zero h4 hmax hcap hheld hm hbase, ho]
  rfl

/-- Settles O50: up to the last chunk the core is receiving the frame (`Cut.run_prefix`), and the last chunk completes
it (`Cut.exec_chunk_completes`). -/
theorem splitFrameDecodesAsWhole : Obligations.SplitFrameDecodesAsWhole := by
  intro f front last rest s is b hs hheld hready hf hall hwhole hfirst hlater hshort hin
  have hcap := hs.maxChunk_le
  have hbounds : ∀ c ∈ chunksOf is, 1 ≤ c.length ∧ c.length ≤ s.maxChunk := fun c hc =>
    wellFormed_chunk.1 (hall _ (mem_chunksOf hc)).1
  have hcut : Cut s f [] (chunksOf is) :=
    ⟨hwhole, hbounds, fun _ => hfirst, by simpa using hlater, hshort.imp_right fun h1 => ⟨rfl, h1⟩⟩
  have hrun : ∀ k, k < is.length → ∃ q evt,
      runSteps k s = .next (s.receiving q ((is.drop k).map encode ++ rest) evt) ∧ Cut s f q (chunksOf (is.drop k)) := by
    intro k hk
    have hback : chunksOf (is.drop k) ≠ [] := by
      rw [List.drop_append_of_le_length (by simpa [is] using hk), chunksOf_append]
      exact List.append_ne_nil_of_right_ne_nil _ nofun
    exact hcut.run_prefix hf hcap hheld hall hin hk.le hback
  refine ⟨fun k hk => ?_, ?_⟩
  · obtain ⟨q, evt, hq, -⟩ := hrun k hk
    exact ⟨_, hq, rfl, rfl⟩
  · have hlen : is.length = front.length + 1 := by simp [is]
    have hdrop : is.drop front.length = [.chunk last] := List.drop_left
    obtain ⟨q, evt, hq, hcutq⟩ := hrun front.length (by omega)
    rw [hdrop] at hq hcutq
    have hstep := (step_receiving hcap hheld (hall _ (by simp [is])).1 q rest evt).trans
      (hcutq.exec_chunk_completes hf hcap hready rest evt)
    have h28 := length_of_wellFormedFrame hf
    rw [hlen, runSteps_add hq]
    refine ⟨_, runSteps_succ hstep 0, rfl, rfl, rfl, rfl, raised_frameDone_completedEvents _ _ _, fun _ => rfl, ?_⟩
    simp only [thermalPart, visiblePart]
    rw [le32_write_front _ (by omega), le32_write_front _ (by omega), List.append_assoc]

/-- Settles O52, by induction on the frames: each is emitted and counted in its own step (`step_frame`). -/
theorem frameStreamEmitsEachInOrder : Obligations.FrameStreamEmitsEachInOrder := by
  intro fs rest s hs
  have hcap := hs.maxChunk_le
  clear hs
  induction fs generalizing s with
  | nil =>
    intro hheld _ _ hin
    exact ⟨s, rfl, hheld, hin, fun h => absurd rfl h, (BitVec.add_zero _).symm, (List.append_nil _).symm, rfl⟩
  | cons f fs ih =>
    intro hheld hready hall hin
    obtain ⟨hf, hmax⟩ := hall f List.mem_cons_self
    have hlen : f.length ≤ Config.capacity := hmax.trans hcap
    obtain ⟨t, hrun, hnone, hrest, hempty, hcount, hvis, hther⟩ := ih (s.afterFrame f (fs.map chunkOf ++ rest))
      hcap hheld hready (fun g hg => hall g (List.mem_cons_of_mem f hg)) rfl
    have hstep := step_frame hf hmax hcap hheld hready hin
    refine ⟨t, (runSteps_succ hstep _).trans hrun, hnone, hrest, fun _ => ?_, ?_, ?_, ?_⟩
    · by_cases hfs : fs = []
      · subst hfs
        cases hrun
        rfl
      · exact hempty hfs
    · have hone : (s.afterFrame f (fs.map chunkOf ++ rest)).dec.frameCount = s.dec.frameCount + 1#32 := rfl
      rw [hcount, hone, List.length_cons, Nat.add_comm, BitVec.ofNat_add, BitVec.add_assoc]
    · rw [hvis, visibleFrames_afterFrame hf hlen, List.flatMap_cons, List.append_assoc]
    · rw [hther, thermalFrames_afterFrame hf, List.filter_cons]
      by_cases hts : 0 < le32Of f 12
      · simp only [hts, decide_true, if_true, List.length_cons]
        omega
      · simp only [hts, decide_false, if_false, Bool.false_eq_true, Nat.add_zero]

/-- Settles O51: the VisibleFrame is made of the frame's own bytes (`jpegSlice_write_frame`); the ThermalFrame is the
window, whose last byte `BUF[9895]` a shorter frame does not write. -/
theorem earlierBytesReachOnlyShortThermalFrames : Obligations.EarlierBytesReachOnlyShortThermalFrames := by
  intro f hf hlen
  have hagree : ∀ m m' : Memory, (∀ a, f.length ≤ a → a < 9896 → m.read a = m'.read a) →
      thermalFrame (m.write 0 f) = thermalFrame (m'.write 0 f) := by
    intro m m' h
    refine thermalReadsWindowOnly _ _ fun y j hy hj => ?_
    by_cases ha : 60 + 164 * y + j < f.length
    · rw [read_write_front m ha, read_write_front m' ha]
    · rw [read_write_outside m 0 f (by omega), read_write_outside m' 0 f (by omega)]
      exact h _ (by omega) (by omega)
  refine ⟨fun m m' => ?_, hagree, fun hlong m m' => hagree m m' fun a h1 h2 => absurd h2 (by omega), fun hshort => ?_⟩
  · rw [visibleFrame, visibleFrame, jpegSlice_write_frame hf hlen, jpegSlice_write_frame hf hlen]
  · refine ⟨[], [(9895, 1#8)], fun hsame => ?_⟩
    have hlast : ∀ m : Memory, (thermalFrame (m.write 0 f))[160 * 59 + 159]? = some (m.read 9895) := fun m => by
      rw [thermalFrame_getElem? _ (by decide) (by decide), read_write_outside m 0 f (by omega)]
    have hread := (hlast []).symm.trans (hsame ▸ hlast [(9895, 1#8)])
    exact absurd hread (by decide)

end Sys2Proof.Certificates
end

section
/-! PROOFS. The events of a transaction and the idle core (60_exceptions.md): O34, O9. -/
namespace Sys2Proof.Machine

open Sys2Proof.Safety

/-- Each of the four ends of a CHUNK raises one of the sets of 60 R213; the one that resyncs does so without
RESET_MARKER, as a chunk that begins with the marker passes its front test. -/
theorem chunkEvents_chunkResult {data : List Byte} (d : FrameDecoder) (hlen : data.length ≤ Config.capacity) :
    chunkEvents (chunkResult data d).1.evt = true := by
  rcases chunkResult_cases data d with ⟨hf, hr⟩ | ⟨-, -, hr⟩ | ⟨-, -, -, hr⟩ | ⟨-, -, -, hr⟩ <;> rw [hr]
  · have hm : markerTest data = false := Bool.eq_false_iff.2 fun hm =>
      Bool.eq_false_iff.1 hf (frontTest_copyChunk_of_markerTest _ hlen hm)
    rw [resetCursor_evt, raiseEvent_evt, copyChunk_evt, hm]
    exact chunkEvents_resync _
  · exact chunkEvents_waitHeader _ _
  · exact chunkEvents_waitFrame _ _
  · exact chunkEvents_completionEvents ..

/-- However a CHUNK ends, it raises each reset event exactly where its test holds (40 R105, 60 R213 points 2 and 7). -/
theorem raised_resets_chunkResult (data : List Byte) (d : FrameDecoder) :
    raised .resetMarker (chunkResult data d).1.evt = markerTest data
      ∧ raised .resetOverflow (chunkResult data d).1.evt = overflowTest d data := by
  obtain ⟨hmarker, hoverflow⟩ : raised .resetMarker (copyChunk data (clearEvents d)).evt = markerTest data
      ∧ raised .resetOverflow (copyChunk data (clearEvents d)).evt = overflowTest d data := by
    simp only [copyChunk_evt, overflowTest_clearEvents, clearEvents_evt, raised_raiseIf, raised_zero]
    simp
  rcases chunkResult_cases data d with ⟨-, hr⟩ | ⟨-, -, hr⟩ | ⟨-, -, -, hr⟩ | ⟨-, -, -, hr⟩
  case inr.inr.inr =>
    simp [hr, -copyChunk_evt, completionEvents, raised_raise, raised_raiseIf, hmarker, hoverflow]
  all_goals simp [hr, -copyChunk_evt, raised_raise, hmarker, hoverflow]

end Sys2Proof.Machine

/-! ## The statements -/

namespace Sys2Proof.Certificates

open Sys2Proof.Machine Sys2Proof.Safety

/-- Settles O34: a CHUNK that ends leaves `chunkResult`, whose events the two lemmas above name; a dropped transaction
sets its one bit (`dropWith_eq`) and RST clears EVT. -/
theorem eventSetsArePossible : Obligations.EventSetsArePossible := by
  intro i s t h _ hnone
  cases i with
  | chunk data =>
    obtain ⟨-, -, hfits, rfl⟩ := execChunk_next h
    obtain ⟨hmarker, hoverflow⟩ := raised_resets_chunkResult data s.dec
    rw [(settle_leaves_after _ _ s).1 hnone]
    exact ⟨chunkEvents_chunkResult s.dec (by omega), fun hm ho => ⟨hmarker.trans hm, hoverflow.trans ho⟩⟩
  | chunkErr | illegal | chunkEmpty =>
    cases h
    rw [dropWith_eq]
    rfl
  | rst => cases h; rfl

/-- Settles O9: the step's idle branch (`step_of_idle`). -/
theorem idleCoreHoldsState : Obligations.IdleCoreHoldsState :=
  fun _ => step_of_idle

end Sys2Proof.Certificates
end

section
/-! PROOFS. The hazards of the sinks and of the chunk boundaries (70_reset_and_hazards.md): O12, O53. -/
namespace Sys2Proof.Machine

open Sys2Proof.Safety

/-! ## A sink that never accepts (44 R192, 70 R249) -/

theorem accepts_of_neverAccepts {k : Sink} (h : NeverAccepts k) : k.accepts = false := by
  obtain ⟨hstanding, hanswers⟩ := h
  rw [Sink.accepts]
  split
  · exact hstanding
  · next b bs hbs => exact hanswers b (hbs ▸ List.mem_cons_self)

theorem neverAccepts_answered {k : Sink} (h : NeverAccepts k) : NeverAccepts k.answered :=
  ⟨h.1, fun b hb => h.2 b (List.mem_of_mem_tail hb)⟩

/-- The sink that the frame goes to. -/
def sinkOf (e : Emission) (s : State) : Sink :=
  match e with
  | .thermal _ => s.thermalSink
  | .visible _ _ => s.visibleSink

theorem sinkAccepts_eq (e : Emission) (s : State) : sinkAccepts e s = (sinkOf e s).accepts := by cases e <;> rfl

@[simp] theorem sinkOf_sinkAnswered (e : Emission) (s : State) :
    sinkOf e (sinkAnswered e s) = (sinkOf e s).answered := by cases e <;> rfl

/-- `s` after the sink of `e` has given `n` more answers. -/
def sinkAnsweredTimes (e : Emission) (n : Nat) (s : State) : State :=
  match e with
  | .thermal _ => { s with thermalSink := { s.thermalSink with answers := s.thermalSink.answers.drop n } }
  | .visible _ _ => { s with visibleSink := { s.visibleSink with answers := s.visibleSink.answers.drop n } }

theorem sinkAnsweredTimes_zero (e : Emission) (s : State) : sinkAnsweredTimes e 0 s = s := by cases e <;> rfl

theorem sinkAnsweredTimes_succ (e : Emission) (n : Nat) (s : State) :
    sinkAnsweredTimes e (n + 1) s = sinkAnsweredTimes e n (sinkAnswered e s) := by
  cases e <;> simp only [sinkAnsweredTimes, sinkAnswered, Sink.answered, List.drop_tail]

/-- A hold whose first frame is refused at every offer: each step only spends one answer of that frame's sink. -/
theorem runSteps_of_neverAccepts {h : Held} {e : Emission} {rest : List Emission} (hpend : h.pending = e :: rest)
    (k : Nat) {s : State} (hheld : s.held = some h) (hnever : NeverAccepts (sinkOf e s)) :
    runSteps k s = .next (sinkAnsweredTimes e k s) := by
  induction k generalizing s with
  | zero =>
    rw [sinkAnsweredTimes_zero]
    rfl
  | succ k ih =>
    have href : sinkAccepts e s = false := (sinkAccepts_eq e s).trans (accepts_of_neverAccepts hnever)
    have hstep : step s = .next (sinkAnswered e s) := by
      rw [step_of_held hheld, settle_pending_refused hheld hpend href]
    rw [runSteps_succ hstep, sinkAnsweredTimes_succ]
    exact ih ((sinkAnswered_held e s).trans hheld) (sinkOf_sinkAnswered e s ▸ neverAccepts_answered hnever)

/-! ## Bytes after a frame (70 R245) -/

/-- The slice looks at its own JS bytes alone (43 R162). -/
theorem jpegSlice_congr {m m' : Memory} {base n : Nat} (h : ∀ i, i < n → m.read (base + i) = m'.read (base + i)) :
    jpegSlice m base n = jpegSlice m' base n := by
  refine List.ext_getElem (by simp only [jpegSlice_length]) fun i hi _ => ?_
  rw [jpegSlice_length] at hi
  rw [jpegSlice_getElem, jpegSlice_getElem, h i hi]

/-- The header of a frame and its VisibleFrame look at nothing beyond the frame's end (41 R122, 43 R162, R167). -/
theorem visiblePart_congr {m m' : Memory} {n : Nat} (h : ∀ i, i < n → m.read i = m'.read i) (hhdr : 28 ≤ n)
    (hpay : 28 + le32 m 12 + le32 m 16 ≤ n) : visiblePart m = visiblePart m' := by
  have hts : le32 m 12 = le32 m' 12 := le32_congr fun i _ hi => h i (by omega)
  have hjs : le32 m 16 = le32 m' 16 := le32_congr fun i _ hi => h i (by omega)
  have hslice : jpegSlice m (28 + le32 m 12) (le32 m 16) = jpegSlice m' (28 + le32 m 12) (le32 m 16) :=
    jpegSlice_congr fun i hi => h _ (by omega)
  simp only [visiblePart, visibleFrame, ← hts, ← hjs, hslice]

/-- What is copied behind a well-formed frame does not enter its VisibleFrame (70 R245). -/
theorem visiblePart_write_append {f : List Byte} (hf : WellFormedFrame f) (tail : List Byte) (m : Memory) :
    visiblePart (m.write 0 (f ++ tail)) = visiblePart (m.write 0 f) := by
  have h28 := length_of_wellFormedFrame hf
  have hsize := hf.size
  have hpay := hf.payload
  refine (visiblePart_congr (n := f.length) (fun i hi => ?_) h28 ?_).symm
  · rw [read_write_front m hi, read_write_front m (hi.trans_le (List.prefix_append f tail).length_le),
      getD_of_prefix (List.prefix_append f tail) hi]
  · rw [le32_write_front m (by omega), le32_write_front m (by omega)]
    omega

/-- The header of a well-formed frame is read the same whatever is copied behind it. -/
theorem le32_write_append {f : List Byte} {o : Nat} (ho : o + 4 ≤ f.length) (tail : List Byte) (m : Memory) :
    le32 (m.write 0 (f ++ tail)) o = le32Of f o := by
  rw [le32_write_front m (by rw [List.length_append]; omega), le32Of_of_prefix (List.prefix_append f tail) ho]

/-- A chunk that begins with a well-formed frame completes it and is, to the core, one frame whatever follows: the rest
is copied to `BUF` with it and dropped with the reset to EMPTY (40 R105, 44 R188). -/
theorem exec_chunk_of_frame_append {f tail : List Byte} {s : State} (hf : WellFormedFrame f)
    (hmax : (f ++ tail).length ≤ s.maxChunk) (hcap : s.maxChunk ≤ Config.capacity) (hheld : s.held = none)
    (hready : SinksReady s) : exec (.chunk (f ++ tail)) s = .next (s.afterFrame (f ++ tail) s.input) := by
  have h28 := length_of_wellFormedFrame hf
  have hlen : (f ++ tail).length = f.length + tail.length := List.length_append
  have hmark : markerTest (f ++ tail) = true := by
    have hmarkf := markerTest_of_prefix hf (List.prefix_refl f) (by omega)
    rw [markerTest_iff_prefix] at hmarkf ⊢
    exact hmarkf.trans (List.prefix_append f tail)
  have hbase := appendBase_of_markerTest s.dec hmark
  have hfront := (frontTest_copyChunk s.dec (hmax.trans hcap)).1
    (frontTest_copyChunk_of_markerTest _ (hmax.trans hcap) hmark)
  have hsize : le32 (s.dec.buf.write 0 (f ++ tail)) 8 + 28 = f.length := by
    rw [le32_write_append (by omega), hf.size, Nat.add_comm]
  rw [exec_chunk_of_complete (by omega) hmax hcap hfront (by omega) (by rw [hbase]; omega), hbase,
    settle_ready _ _ hready, ← hheld]
  rfl

end Sys2Proof.Machine

/-! ## The statements -/

namespace Sys2Proof.Certificates

open Sys2Proof.Machine Sys2Proof.Safety

/-- Settles O12, by induction on the number of steps (`runSteps_of_neverAccepts`), whichever sink it is. -/
theorem neverAcceptingSinkHoldsForever : Obligations.NeverAcceptingSinkHoldsForever := by
  intro s h e rest hheld hpend k
  cases e with
  | thermal | visible => exact runSteps_of_neverAccepts hpend k hheld

/-- Settles O53: the chunk completes as one frame (`exec_chunk_of_frame_append`), and its emissions are those of `BUF`
after the whole copy, of which the VisibleFrame looks at `f` alone (`visiblePart_write_append`). -/
theorem bytesAfterFrameAreDiscarded : Obligations.BytesAfterFrameAreDiscarded := by
  intro f tail s hf hmax hcap hheld hready
  have h28 := length_of_wellFormedFrame hf
  have hlen : f.length ≤ Config.capacity := (List.prefix_append f tail).length_le.trans (hmax.trans hcap)
  have hthermal : thermalFrames (s.afterFrame (f ++ tail) s.input).emitted = thermalFrames s.emitted
      ++ (if 0 < le32Of f 12 then [thermalFrame (s.dec.buf.write 0 (f ++ tail))] else []) := by
    simp only [State.afterFrame, thermalFrames_append, thermalFrames_thermalPart, thermalFrames_visiblePart,
      List.append_nil, le32_write_append (f := f) (o := 12) (by omega)]
  refine ⟨_, exec_chunk_of_frame_append hf hmax hcap hheld hready, hheld, rfl, rfl, ?_, hthermal, ?_⟩
  · simp only [State.afterFrame, visibleFrames_append, visibleFrames_thermalPart, List.nil_append,
      visiblePart_write_append hf, visibleFrames_visiblePart hf hlen]
  · rw [hthermal, List.length_append, apply_ite List.length]
    rfl

end Sys2Proof.Certificates
end
